-- ==== Sys2Proof/Word.lean ====
section
/-! DEFINITION. The widths of the interface: 32-bit words (00_scope.md R5, R6), the bytes the model's buffers are kept
in, and vectors over GF(2) as sequences of bits, element 0 first (R6, R10). -/

namespace Sys2Proof

/-- A host-visible register, a command word, a host address or a word on the host data bus (R5). -/
abbrev Word := BitVec 32

/-- Eight neighbouring bits of a data buffer, and an 8-bit field of a command word or of CFG. -/
abbrev Byte := BitVec 8

/-- A vector over GF(2): the sequence `v[0], v[1], …` (R6). Its length is the length of the list. -/
abbrev Bits := List Bool

end Sys2Proof
end

