-- ==== Sys2Proof/Syntax.lean ====
section
/-! DEFINITION. The six operations of the block, one constructor per row of spec/opcode_table.json: three command words
(30_encoding.md R71) and three accessor reads (R76). -/

namespace Sys2Proof

/-- The operations. `r` and `m` are the unsigned integers of the fields `RV` and `MV` (R72). -/
inductive Instr where
  /-- `construct(r, m)` (40_builder.md R114). -/
  | construct (r m : Nat)
  /-- `encode(message)` (41_encode.md R142). -/
  | encode
  /-- `decode(received)` (42_decode.md R157). -/
  | decode
  /-- `block_length()`: a host read of N (R115). -/
  | blockLength
  /-- `message_length()`: a host read of K (R116). -/
  | messageLength
  /-- `strength()`: a host read of T (R117). -/
  | strength
deriving DecidableEq, Repr

/-- The rows of format `CMD32`; the others have format `MMIO_READ` (R70, R76). -/
def Instr.isCommand : Instr → Bool
  | .construct _ _ => true
  | .encode => true
  | .decode => true
  | .blockLength => false
  | .messageLength => false
  | .strength => false

end Sys2Proof
end

