-- ==== Sys2Proof/WellFormed.lean ====
section
/-! DEFINITION. Which instructions have an encoding: `0 ≤ r ≤ 255` and `0 ≤ m ≤ 255` (30_encoding.md R77). `r ≥ m` and
`m > M_MAX` are well formed: they are run-time errors. -/

namespace Sys2Proof

/-- The operand ranges of R77. -/
def Instr.wellFormed : Instr → Bool
  | .construct r m => decide (r ≤ 255) && decide (m ≤ 255)
  | .encode => true
  | .decode => true
  | .blockLength => true
  | .messageLength => true
  | .strength => true

/-- The same as a proposition. -/
abbrev Instr.WellFormed (i : Instr) : Prop := i.wellFormed = true

end Sys2Proof
end

