-- ==== Sys2Proof/Decode.lean ====
section
/-! DEFINITION. The command decoder, total on every 32-bit word (30_encoding.md R70 to R75), the accessor addresses (R76),
the encoder, and the numbering of spec/opcode_table.json. -/

namespace Sys2Proof

/-- `OP`, bits [7:0] of a command word (R70). -/
def opField (v : Word) : Byte := v.extractLsb' 0 8

/-- `RV`, bits [15:8]: the order `r` (R70, R72). -/
def rvField (v : Word) : Byte := v.extractLsb' 8 8

/-- `MV`, bits [23:16]: the variable count `m` (R70, R72). -/
def mvField (v : Word) : Byte := v.extractLsb' 16 8

/-- `RSV`, bits [31:24]: must be 0 (R70). -/
def rsvField (v : Word) : Byte := v.extractLsb' 24 8

/-- `Legal(v)` as R73 writes it. -/
def legalWord (v : Word) : Bool :=
  (opField v == 0x01#8 && rsvField v == 0#8) ||
  (opField v == 0x02#8 && v.extractLsb' 8 24 == 0#24) ||
  (opField v == 0x03#8 && v.extractLsb' 8 24 == 0#24)

/-- Why a word is no command (R74). Every such word has the one outcome `ILLEGAL_COMMAND`; the names are for the reader. -/
inductive IllegalWord where
  /-- `OP` is 0x00 or 0x04 to 0xFF. -/
  | reservedOpcode
  /-- A CONSTRUCT with a nonzero `RSV`. -/
  | reservedField
  /-- An ENCODE or DECODE with a nonzero bit in [31:8]. -/
  | operandOnPlainCommand
deriving DecidableEq, Repr

/-- ENCODE and DECODE are legal only with bits [31:8] all 0 (R73). -/
def decodePlain (v : Word) (i : Instr) : Except IllegalWord Instr :=
  if v.extractLsb' 8 24 = 0#24 then .ok i else .error .operandOnPlainCommand

/-- The command decoder (R71 to R75). It looks at the word alone. -/
def decodeCommand (v : Word) : Except IllegalWord Instr :=
  if opField v = 0x01#8 then
    if rsvField v = 0#8 then .ok (.construct (rvField v).toNat (mvField v).toNat)
    else .error .reservedField
  else if opField v = 0x02#8 then decodePlain v .encode
  else if opField v = 0x03#8 then decodePlain v .decode
  else .error .reservedOpcode

/-- The accessor a host read of address `a` is, if it is one (R76; 20_memory.md R51). -/
def decodeRead (a : Word) : Option Instr :=
  if a = 0x00C#32 then some .blockLength
  else if a = 0x010#32 then some .messageLength
  else if a = 0x014#32 then some .strength
  else none

/-- The word of an instruction: the command word (R77), or the address an accessor reads (R76). -/
def encode : Instr → Word
  | .construct r m => (BitVec.ofNat 32 m <<< 16) ||| (BitVec.ofNat 32 r <<< 8) ||| 0x01#32
  | .encode => 0x00000002#32
  | .decode => 0x00000003#32
  | .blockLength => 0x0000000C#32
  | .messageLength => 0x00000010#32
  | .strength => 0x00000014#32

/-- An opcode-table row's word of `nbits` bits as a 32-bit word, the bits above `nbits` 0; `none` for a longer one, which no
command is (R75). -/
def tableWord (nbits w : Nat) : Option Word :=
  if nbits ≤ 32 then some (BitVec.ofNat 32 (w % 2 ^ nbits)) else none

/-- What a table row's word stands for: an accessor's address, else a command word. No address of R76 is a legal command
word, so the order of the two does not matter (assumption log 10). -/
def decodeTableWord (nbits w : Nat) : Option Instr :=
  match tableWord nbits w with
  | none => none
  | some v =>
    match decodeRead v with
    | some i => some i
    | none => (decodeCommand v).toOption

end Sys2Proof
end

