-- ==== Sys2Proof/Config.lean ====
section
/-! DEFINITION. What an implementation fixes (the capacity `M_MAX`) and the values the spec leaves free. None of the
`opaque` constants has a body: nothing can prove a value of one. -/

namespace Sys2Proof

/-- The capacity parameter: `1 ≤ M_MAX ≤ 31` (00_scope.md R5, 92 D2). -/
structure Capacity where
  mMax : Nat
  pos : 1 ≤ mMax
  le : mMax ≤ 31
deriving DecidableEq, Repr

/-- `N_MAX = 2^M_MAX`, the largest block length and the number of bits of each data buffer (R5). -/
def Capacity.nMax (c : Capacity) : Nat := 2 ^ c.mMax

/-- `W = ceil(N_MAX / 32)`, the words of each data buffer (R5). -/
def Capacity.words (c : Capacity) : Nat := (c.nMax + 31) / 32

/-- Which of the 31 legal capacities this block was built with, less one: open (93 U11). Assumption log 3. -/
opaque Config.mMaxIndex : Fin 31

/-- The capacity of the block that `State.reset` describes (R5: a model must hold for every value in its range). -/
def Config.capacity : Capacity := ⟨Config.mMaxIndex.val + 1, by omega, by omega⟩

/-- The `k`-th free draw of a 32-bit value: reads while busy and LATCH after reset (93 U1, U2, U6). Assumption log 2. -/
opaque Config.freeWord : Nat → Word

/-- The `k`-th free draw of a whole buffer, byte by byte: the contents after a reset (93 U4, U5). Assumption log 5. -/
opaque Config.freeByte : Nat → Nat → Byte

end Sys2Proof
end

