-- ==== Sys2Proof/Machine/State.lean ====
section
/-! DEFINITION. The state of the block (10_state.md R20 to R40) as plain data, with the model's own fields for the two agents
(00_scope.md R9), and its value after reset. -/

namespace Sys2Proof.Machine

/-- `STATUS.RESULT`: the outcome of the last completed command (10_state.md R28). Codes 9 to 15 are never written, so no
constructor stands for them (93 U7; assumption log 13). -/
inductive Result where
  | none
  | constructed
  | encoded
  | decoded
  | ambiguous
  | paramError
  | lengthError
  | notConstructed
  | illegalCommand
deriving DecidableEq, Repr

/-- STATUS (R27): the outcome and the busy flag. Its reserved bits read 0 and are not stored. -/
structure Status where
  result : Result
  busy : Bool
deriving DecidableEq, Repr

/-- CFG (R23): the fields `VALID` [31], `M` [15:8] and `R` [7:0]. Its reserved bits read 0 and are not stored. -/
structure Cfg where
  valid : Bool
  m : Byte
  r : Byte
deriving DecidableEq, Repr

/-- What a bit of a data buffer that no cell lists reads as: 0, or the contents a reset left, a free draw by its number. -/
inductive Fill where
  | zero
  | drawn (k : Nat)
deriving DecidableEq, Repr

/-- A data buffer (R32, R34): cells of (byte offset from the start of its window, byte), and what an unlisted byte reads as.
The canonical form is `Buffer.wf` (Machine/Buffer.lean). -/
structure Buffer where
  fill : Fill
  cells : List Host.Cell
deriving DecidableEq, Repr

/-- TABLES (R36): the monomial enumeration (each monomial its variables in increasing order), the generator matrix by rows,
the degree boundaries, and the voting-row family of every row. -/
structure Tables where
  mono : List (List Nat)
  gen : List Bits
  lower : List Nat
  upper : List Nat
  vote : List (List Bits)
deriving DecidableEq, Repr

/-- TABLES with no instance (R36, R40). -/
def Tables.empty : Tables := ⟨[], [], [], [], []⟩

/-- One host access of the address space: its address and its width in bytes (20_memory.md R50, R56). -/
inductive HostAccess where
  | read (addr : Word) (width : Nat)
  | write (addr : Word) (width : Nat) (value : Word)
deriving DecidableEq, Repr

/-- One thing that happens to the block from outside it: the host performs an access, the sequencer is given its turn, or
reset is asserted (00_scope.md R9; 70_reset_and_hazards.md R200, R203). -/
inductive Input where
  | access (a : HostAccess)
  | sequencer
  | reset
deriving DecidableEq, Repr

/-- The block's state (10_state.md R20), its build-time capacity, and the model's own fields `rdata`, `draws`, `inputs`. -/
structure State where
  /-- The capacity `M_MAX`, constant (00_scope.md R5); CAPS shows it (R35). -/
  cap : Capacity
  /-- CFG (R23); N, K and T are views of it (R24 to R26). -/
  cfg : Cfg
  /-- TABLES (R36, R37). -/
  tables : Tables
  /-- STATUS (R27 to R29). -/
  status : Status
  /-- LATCH, the pending command word (R30). -/
  latch : Word
  /-- IN_LEN (R31). -/
  inLen : Word
  /-- IN_DATA (R32). -/
  inData : Buffer
  /-- OUT_LEN (R33). -/
  outLen : Word
  /-- OUT_DATA (R34). -/
  outData : Buffer
  /-- The model's own: the value the last host read returned (00_scope.md R8). Assumption log 7. -/
  rdata : Word
  /-- The model's own: the number of the next free draw. Assumption log 2. -/
  draws : Nat
  /-- The model's own: the outside events still to come, in order. Assumption log 1. -/
  inputs : List Input
deriving DecidableEq, Repr

/-- Nothing faults: "No behaviour of this spec has the treatment `fault` or `stuck`" (93_implementation_defined.md). -/
inductive Fault where
deriving DecidableEq, Repr

/-- Why the model has no step. -/
inductive Refusal where
  /-- An instruction without a meaning; no arm of `exec` raises it. -/
  | notModelled (mnemonic : String)
  /-- Raised by a host access that is not 32 bits wide or not 4-byte aligned (20_memory.md R56, 93 U10: "refused: the model
  has no step for it"). Safe. -/
  | badAccess
  /-- Raised by a host write, to any address, while `STATUS.BUSY = 1` (70_reset_and_hazards.md R204(1), 93 U3: "refused: the
  model has no step for it"). Safe. -/
  | writeWhileBusy
deriving DecidableEq, Repr

/-- The state a reset leaves (10_state.md R40) in a block of capacity `c`, with the free draws numbered from `k`: LATCH and
IN_DATA take draw `k`, OUT_DATA draw `k + 1`. -/
def State.afterReset (c : Capacity) (k : Nat) : State where
  cap := c
  cfg := ⟨false, 0#8, 0#8⟩
  tables := .empty
  status := ⟨.none, false⟩
  latch := Config.freeWord k
  inLen := 0#32
  inData := ⟨.drawn k, []⟩
  outLen := 0#32
  outData := ⟨.drawn (k + 1), []⟩
  rdata := 0#32
  draws := k + 2
  inputs := []

/-- The block right after reset, with no host access placed yet (R40, R200). -/
def State.reset : State := State.afterReset Config.capacity 0

end Sys2Proof.Machine
end

