-- ==== Sys2Proof/Machine/Flags.lean ====
section
/-! DEFINITION. STATUS, the block's only flags (10_state.md R27 to R29, R39), and how a command's outcome is reported
(60_exceptions.md R181). -/

namespace Sys2Proof.Machine

/-- The code of each outcome (10_state.md R28). -/
def Result.code : Result → BitVec 4
  | .none => 0#4
  | .constructed => 1#4
  | .encoded => 2#4
  | .decoded => 3#4
  | .ambiguous => 4#4
  | .paramError => 5#4
  | .lengthError => 6#4
  | .notConstructed => 7#4
  | .illegalCommand => 8#4

/-- A STATUS word: `RESULT` [3:0], reserved [7:4], `BUSY` [8], reserved [31:9] (10_state.md R27). -/
def statusWord (result : BitVec 4) (busy : Bool) : Word := 0#23 ++ BitVec.ofBool busy ++ 0#4 ++ result

/-- STATUS as the host reads it while no command is pending (10_state.md R27). -/
def Status.word (s : Status) : Word := statusWord s.result.code s.busy

/-- STATUS as the host reads it while a command is pending: `BUSY` 1, reserved bits 0, and any value in `RESULT`
(70_reset_and_hazards.md R204(2)). -/
def busyStatusWord (draw : Word) : Word := statusWord (draw.extractLsb' 0 4) true

/-- `finish(CODE)` (00_scope.md R8) with the `STATUS.BUSY <- 0` that the completion step does after it in the same step
(70_reset_and_hazards.md R203). -/
def finish (code : Result) (s : State) : State := { s with status := ⟨code, false⟩ }

end Sys2Proof.Machine
end

