-- ==== Sys2Proof/Machine/Buffer.lean ====
section
/-! DEFINITION. The data buffers: what exists of them, reading and writing words, and the packing of vectors
(10_state.md R32, R34; 20_memory.md R52 to R55). -/

namespace Sys2Proof.Machine

/-- The existing bits of the byte at offset `off`: bit `i` of a buffer exists when `i < N_MAX` (10_state.md R32). -/
def byteMask (c : Capacity) (off : Nat) : Byte := BitVec.ofNat 8 (2 ^ min 8 (c.nMax - 8 * off) - 1)

/-- What an unlisted byte reads as: 0, or the free draw a reset left there, as far as its bits exist (10_state.md R40).
DESIGN CHOICE for OUT_DATA: with `N_MAX < 32` the spec leaves open what bits `N_MAX` to 31 of its word 0 read after reset, and
the model reads 0 there, as R32 has it for IN_DATA (assumption log 19). -/
def unlistedByte (c : Capacity) (f : Fill) (off : Nat) : Byte :=
  match f with
  | .zero => 0#8
  | .drawn k => Config.freeByte k off &&& byteMask c off

/-- The byte a cell lists at offset `off`, if one does. -/
def cellAt (off : Nat) : List Host.Cell → Option Byte
  | [] => none
  | p :: rest => if p.1 = off then some p.2 else cellAt off rest

/-- Lists `v` at `off`, keeping the offsets in rising order. -/
def insertCell (off : Nat) (v : Byte) : List Host.Cell → List Host.Cell
  | [] => [(off, v)]
  | p :: rest =>
    if off < p.1 then (off, v) :: p :: rest
    else if off = p.1 then (off, v) :: rest
    else p :: insertCell off v rest

/-- Takes `off` out of the list. -/
def eraseCell (off : Nat) (cells : List Host.Cell) : List Host.Cell := cells.filter (fun p => p.1 != off)

/-- The byte at offset `off`; a bit that does not exist reads 0 (10_state.md R32; in OUT_DATA after reset the model's choice,
assumption log 19). -/
def Buffer.byteAt (c : Capacity) (b : Buffer) (off : Nat) : Byte :=
  match cellAt off b.cells with
  | some v => v &&& byteMask c off
  | none => unlistedByte c b.fill off

/-- Writes the byte at offset `off`; a bit that does not exist ignores the write (10_state.md R32). A byte equal to what an
unlisted one reads as is not listed. -/
def Buffer.setByte (c : Capacity) (b : Buffer) (off : Nat) (v : Byte) : Buffer :=
  if v &&& byteMask c off = unlistedByte c b.fill off then ⟨b.fill, eraseCell off b.cells⟩
  else ⟨b.fill, insertCell off (v &&& byteMask c off) b.cells⟩

/-- Word `w` of a buffer (20_memory.md R52, R53). The order of its bytes is the model's and cannot be observed
(R55; assumption log 4). -/
def Buffer.wordAt (c : Capacity) (b : Buffer) (w : Nat) : Word :=
  b.byteAt c (4 * w + 3) ++ b.byteAt c (4 * w + 2) ++ b.byteAt c (4 * w + 1) ++ b.byteAt c (4 * w)

/-- Replaces word `w` of a buffer (20_memory.md R58). -/
def Buffer.setWord (c : Capacity) (b : Buffer) (w : Nat) (v : Word) : Buffer :=
  (((b.setByte c (4 * w) (v.extractLsb' 0 8)).setByte c (4 * w + 1) (v.extractLsb' 8 8)).setByte c (4 * w + 2)
    (v.extractLsb' 16 8)).setByte c (4 * w + 3) (v.extractLsb' 24 8)

/-- `BufBit(B, i) = B.word[i div 32][i mod 32]` (20_memory.md R54). -/
def Buffer.bit (c : Capacity) (b : Buffer) (i : Nat) : Bool := (b.wordAt c (i / 32)).getLsbD (i % 32)

/-- `ReadVec(B, L)` (20_memory.md R54). -/
def Buffer.readVec (c : Capacity) (b : Buffer) (len : Nat) : Bits := (List.range len).map (b.bit c)

/-- Elements `8*off` to `8*off + 7` of a vector as a byte, elements past its end 0 (20_memory.md R54). -/
def packByte (v : Bits) (off : Nat) : Byte :=
  BitVec.ofBool (v.getD (8 * off + 7) false) ++ BitVec.ofBool (v.getD (8 * off + 6) false) ++
  BitVec.ofBool (v.getD (8 * off + 5) false) ++ BitVec.ofBool (v.getD (8 * off + 4) false) ++
  BitVec.ofBool (v.getD (8 * off + 3) false) ++ BitVec.ofBool (v.getD (8 * off + 2) false) ++
  BitVec.ofBool (v.getD (8 * off + 1) false) ++ BitVec.ofBool (v.getD (8 * off) false)

/-- The cell that holds byte `off` of a vector in a buffer whose other bits are 0, if that byte is not 0. -/
def packCell (c : Capacity) (v : Bits) (off : Nat) : Option Host.Cell :=
  if packByte v off &&& byteMask c off = 0#8 then none else some (off, packByte v off &&& byteMask c off)

/-- `WriteVec(B, v)`: the buffer that holds `v`, every other bit 0 (20_memory.md R54). -/
def Buffer.writeVec (c : Capacity) (v : Bits) : Buffer :=
  ⟨.zero, (List.range ((v.length + 7) / 8)).filterMap (packCell c v)⟩

/-- A listed cell holds existing bits only, and not what its byte would read as unlisted. -/
def cellOk (c : Capacity) (f : Fill) (p : Host.Cell) : Bool :=
  p.2 &&& byteMask c p.1 == p.2 && p.2 != unlistedByte c f p.1

/-- The canonical form: offsets strictly rising and every cell needed, so that equal buffers are equal data. -/
def Buffer.wf (c : Capacity) (b : Buffer) : Bool :=
  decide (b.cells.Pairwise (fun p q => p.1 < q.1)) && b.cells.all (cellOk c b.fill)

end Sys2Proof.Machine
end

