-- ==== Sys2Proof/Machine/Vectors.lean ====
section
/-! DEFINITION. Operations on vectors over GF(2) (00_scope.md R7). -/

namespace Sys2Proof.Machine

/-- Coordinatewise `xor` (R7). -/
def vxor (u v : Bits) : Bits := List.zipWith Bool.xor u v

/-- Coordinatewise `and`, the coordinatewise product (R7). -/
def vand (u v : Bits) : Bits := List.zipWith (fun a b => a && b) u v

/-- Coordinatewise `not` (R7). -/
def vnot (u : Bits) : Bits := u.map (fun a => !a)

/-- The number of 1 elements (R7), the Hamming weight (R11). -/
def popcount (v : Bits) : Nat := v.count true

/-- The mod-2 dot product (R7). -/
def dot2 (u v : Bits) : Bool := popcount (vand u v) % 2 == 1

/-- The all-0 vector of length `len` (R7). -/
def zeros (len : Nat) : Bits := List.replicate len false

/-- The all-1 vector of length `len` (R7). -/
def ones (len : Nat) : Bits := List.replicate len true

/-- `v[lo..hi]`, elements `lo` to `hi` inclusive (R7). -/
def slice (v : Bits) (lo hi : Nat) : Bits := (v.drop lo).take (hi + 1 - lo)

end Sys2Proof.Machine
end

