-- ==== Sys2Proof/Machine/Builder.lean ====
section
/-! DEFINITION. The table builder as pure functions of `(r, m)` (40_builder.md R100 to R113, R118). -/

namespace Sys2Proof.Machine

/-- `C(m, i) = m! / (i! (m-i)!)`, exact, for `i ≤ m` (R101). -/
def binomial (m i : Nat) : Nat := m.factorial / (i.factorial * (m - i).factorial)

/-- `Σ_{i=0}^{d} C(m, i)`: the number of monomials of degree at most `d` (R100, R109). -/
def binomialSum (m d : Nat) : Nat := ((List.range (d + 1)).map (binomial m)).sum

/-- `n = 2^m` (R100). -/
def blockLength (m : Nat) : Nat := 2 ^ m

/-- `k = Σ_{i=0}^{r} C(m, i)` (R100). -/
def messageLength (r m : Nat) : Nat := binomialSum m r

/-- `t = 2^(m-r-1) - 1` (R100; 90_conflicts.md C1). -/
def strength (r m : Nat) : Nat := 2 ^ (m - r - 1) - 1

/-- `ParamsOK(r, m)` (R102). -/
def paramsOk (c : Capacity) (r m : Nat) : Bool := decide (r < m) && decide (m ≤ c.mMax)

/-- The `d`-element subsequences of a list, those that take its head first: on an increasing list, the lexicographic order
of R104. -/
def combinations : Nat → List Nat → List (List Nat)
  | 0, _ => [[]]
  | _ + 1, [] => []
  | d + 1, x :: xs => (combinations d xs).map (x :: ·) ++ combinations (d + 1) xs

/-- `Subsets(m, d)` in the order of R104, each subset its elements in increasing order. -/
def subsets (m d : Nat) : List (List Nat) := combinations d (List.range m)

/-- `Mono` (R103): the one enumeration every table uses (R118). -/
def monomials (r m : Nat) : List (List Nat) := (List.range (r + 1)).flatMap (subsets m)

/-- `X_i[c]`: 1 exactly when bit `m-1-i` of the point index is 0 (R105; 90_conflicts.md C3). -/
def variableBit (m i c : Nat) : Bool := !c.testBit (m - 1 - i)

/-- `X_i`, the evaluation vector of variable `i` (R105). -/
def variableVector (m i : Nat) : Bits := (List.range (blockLength m)).map (variableBit m i)

/-- `Eval(S)[c]` (R106). -/
def evalBit (m : Nat) (S : List Nat) (c : Nat) : Bool := S.all (fun i => variableBit m i c)

/-- `Eval(S)`, the evaluation vector of a monomial (R106). -/
def evalVector (m : Nat) (S : List Nat) : Bits := (List.range (blockLength m)).map (evalBit m S)

/-- `G`, by rows: `G[j] = Eval(Mono(j))` (R107). -/
def generatorMatrix (r m : Nat) : List Bits := (monomials r m).map (evalVector m)

/-- `upper(d)` (R109). -/
def upperBound (m d : Nat) : Nat := binomialSum m d - 1

/-- `lower(d)` (R109). -/
def lowerBound (m : Nat) : Nat → Nat
  | 0 => 0
  | d + 1 => upperBound m d + 1

/-- `Comp(j) = {0, …, m-1} \ S_j` (R111). -/
def complementOf (m : Nat) (S : List Nat) : List Nat := (List.range m).filter (fun i => !S.contains i)

/-- The assignments of `len` variables, the first outermost and 1 before 0 (R113). -/
def assignments : Nat → List Bits
  | 0 => [[]]
  | len + 1 => (assignments len).map (true :: ·) ++ (assignments len).map (false :: ·)

/-- `V(j, a)[c]`: every complementary variable has its assigned value at `c` (R111). -/
def votingBit (m : Nat) (comp : List Nat) (a : Bits) (c : Nat) : Bool :=
  (comp.zip a).all (fun p => variableBit m p.1 c == p.2)

/-- `V(j, a)`, the indicator of one coset (R111). -/
def votingVector (m : Nat) (comp : List Nat) (a : Bits) : Bits :=
  (List.range (blockLength m)).map (votingBit m comp a)

/-- `VOTE(j)` of the row with support `S` (R111), in the listing order of R113. -/
def votingFamily (m : Nat) (S : List Nat) : List Bits :=
  (assignments (complementOf m S).length).map (votingVector m (complementOf m S))

/-- TABLES for `(r, m)` (R114; 10_state.md R36). -/
def buildTables (r m : Nat) : Tables where
  mono := monomials r m
  gen := generatorMatrix r m
  lower := (List.range (r + 1)).map (lowerBound m)
  upper := (List.range (r + 1)).map (upperBound m)
  vote := (monomials r m).map (votingFamily m)

/-- `Col(c)`, column `c` of the generator matrix (R108). -/
def columnOf (t : Tables) (c : Nat) : Bits := t.gen.map (fun row => row.getD c false)

end Sys2Proof.Machine
end

