-- ==== Sys2Proof/Machine/Operands.lean ====
section
/-! DEFINITION. Where a command takes its operands from (30_encoding.md R72). CONSTRUCT's are the fields `RV` and `MV` of the
latched word, read by the decoder (Decode.lean); ENCODE's and DECODE's are IN_LEN and IN_DATA and the current instance. -/

namespace Sys2Proof.Machine

/-- `r` of the current instance, `CFG.R` (10_state.md R23). -/
def State.order (s : State) : Nat := s.cfg.r.toNat

/-- `m` of the current instance, `CFG.M` (10_state.md R23). -/
def State.vars (s : State) : Nat := s.cfg.m.toNat

/-- `n` of the current instance (10_state.md R24). -/
def State.codeLen (s : State) : Nat := blockLength s.vars

/-- `k` of the current instance (10_state.md R25). -/
def State.msgLen (s : State) : Nat := messageLength s.order s.vars

/-- The input vector `ReadVec(IN_DATA, len)` (30_encoding.md R72; 20_memory.md R54). -/
def State.inputVec (s : State) (len : Nat) : Bits := s.inData.readVec s.cap len

end Sys2Proof.Machine
end

