-- ==== Sys2Proof/Machine/Ops.lean ====
section
/-! DEFINITION. The named operations: the views N, K, T, CFG and CAPS, the address map, host reads and writes, putting out a
vector, the error outcomes, and reset. The block has no exception to take and none to return from (60_exceptions.md R189 to
R191): what stands in their place is reporting an outcome, `finish` (Machine/Flags.lean), `failClearing` and
`rejectIllegal`. -/

namespace Sys2Proof.Machine

/-- CFG as the host reads it (10_state.md R23). -/
def Cfg.word (g : Cfg) : Word := BitVec.ofBool g.valid ++ 0#15 ++ g.m ++ g.r

/-- N (10_state.md R24). -/
def State.nReg (s : State) : Word := if s.cfg.valid then BitVec.ofNat 32 s.codeLen else 0#32

/-- K (10_state.md R25). -/
def State.kReg (s : State) : Word := if s.cfg.valid then BitVec.ofNat 32 s.msgLen else 0#32

/-- T (10_state.md R26). -/
def State.tReg (s : State) : Word := if s.cfg.valid then BitVec.ofNat 32 (strength s.order s.vars) else 0#32

/-- CAPS: bits [7:0] hold `M_MAX` (10_state.md R35). -/
def State.capsReg (s : State) : Word := BitVec.ofNat 32 s.cap.mMax

/-- The places of the host address space (20_memory.md R50). -/
inductive Location where
  | cmd
  | status
  | cfg
  | n
  | k
  | t
  | inLen
  | outLen
  | caps
  | inData (w : Nat)
  | outData (w : Nat)
  | unmapped
deriving DecidableEq, Repr

/-- The control register at an address of region `00` (20_memory.md R51). -/
def controlRegister (a : Nat) : Location :=
  if a = 0x000 then .cmd
  else if a = 0x004 then .status
  else if a = 0x008 then .cfg
  else if a = 0x00C then .n
  else if a = 0x010 then .k
  else if a = 0x014 then .t
  else if a = 0x018 then .inLen
  else if a = 0x01C then .outLen
  else if a = 0x020 then .caps
  else .unmapped

/-- The place a 4-byte aligned address names: bits [31:30] select the region (20_memory.md R50 to R53). -/
def locate (c : Capacity) (a : Word) : Location :=
  if a.toNat < 0x40000000 then controlRegister a.toNat
  else if a.toNat < 0x80000000 then
    if (a.toNat - 0x40000000) / 4 < c.words then .inData ((a.toNat - 0x40000000) / 4) else .unmapped
  else if a.toNat < 0xC0000000 then
    if (a.toNat - 0x80000000) / 4 < c.words then .outData ((a.toNat - 0x80000000) / 4) else .unmapped
  else .unmapped

/-- An access the block admits: 32 bits wide and 4-byte aligned (20_memory.md R56). -/
def admissible (a : Word) (width : Nat) : Bool := width == 4 && a.extractLsb' 0 2 == 0#2

/-- The value a place holds while no command is pending (20_memory.md R51, R57, R58). -/
def State.valueAt (s : State) : Location → Word
  | .cmd => 0#32
  | .status => s.status.word
  | .cfg => s.cfg.word
  | .n => s.nReg
  | .k => s.kReg
  | .t => s.tReg
  | .inLen => s.inLen
  | .outLen => s.outLen
  | .caps => s.capsReg
  | .inData w => s.inData.wordAt s.cap w
  | .outData w => s.outData.wordAt s.cap w
  | .unmapped => 0#32

/-- What a read while busy returns, from a free draw: STATUS shows `BUSY`, all else is any value
(70_reset_and_hazards.md R204(2), (3)). -/
def busyValue (loc : Location) (draw : Word) : Word :=
  if loc = .status then busyStatusWord draw else draw

/-- A host read: the value goes to the host, and nothing in the block changes (20_memory.md R59). While busy it uses up a free
draw. -/
def hostRead (loc : Location) (s : State) : State :=
  if s.status.busy then
    { s with rdata := busyValue loc (Config.freeWord s.draws), draws := s.draws + 1 }
  else { s with rdata := s.valueAt loc }

/-- A host write while no command is pending: CMD issues a command (10_state.md R30), IN_LEN and IN_DATA take the value
(R31, R32), every other place ignores it (20_memory.md R57). -/
def hostWrite (loc : Location) (v : Word) (s : State) : State :=
  match loc with
  | .cmd => { s with latch := v, status := ⟨s.status.result, true⟩ }
  | .inLen => { s with inLen := v }
  | .inData w => { s with inData := s.inData.setWord s.cap w v }
  | .status => s
  | .cfg => s
  | .n => s
  | .k => s
  | .t => s
  | .outLen => s
  | .caps => s
  | .outData _ => s
  | .unmapped => s

/-- `WriteVec(OUT_DATA, v)` and `OUT_LEN <- len` (10_state.md R33, R34; 41_encode.md R142; 42_decode.md R157). -/
def putOut (len : Nat) (v : Bits) (s : State) : State :=
  { s with outData := Buffer.writeVec s.cap v, outLen := BitVec.ofNat 32 len }

/-- The outcomes with no output: `OUT_LEN <- 0`, every bit of OUT_DATA 0, and the code (60_exceptions.md R183 to R185). -/
def failClearing (code : Result) (s : State) : State := finish code (putOut 0 (zeros 0) s)

/-- The completion of an illegal command: the code and nothing else (60_exceptions.md R186; 30_encoding.md R74). -/
def rejectIllegal (s : State) : State := finish .illegalCommand s

/-- `CFG <- {VALID = 1, M = m, R = r}` and the new TABLES (40_builder.md R114). -/
def install (r m : Nat) (s : State) : State :=
  { s with cfg := ⟨true, BitVec.ofNat 8 m, BitVec.ofNat 8 r⟩, tables := buildTables r m }

/-- The reset event (70_reset_and_hazards.md R200, R201): every element of state takes its reset value, with fresh draws; a
pending command is discarded. The host's side (`rdata`, `inputs`) goes on (assumption log 12). -/
def resetBlock (s : State) : State :=
  { State.afterReset s.cap s.draws with rdata := s.rdata, inputs := s.inputs }

end Sys2Proof.Machine
end

