-- ==== Sys2Proof/Machine/Accessors.lean ====
section
/-! DEFINITION. The accessors: host reads of N, K and T (30_encoding.md R76; 40_builder.md R115 to R117). -/

namespace Sys2Proof.Machine

/-- `block_length()`: a read of N (R115). -/
def execBlockLength (s : State) : Host.Outcome State Fault Refusal := .next (hostRead .n s)

/-- `message_length()`: a read of K (R116). -/
def execMessageLength (s : State) : Host.Outcome State Fault Refusal := .next (hostRead .k s)

/-- `strength()`: a read of T (R117). -/
def execStrength (s : State) : Host.Outcome State Fault Refusal := .next (hostRead .t s)

end Sys2Proof.Machine
end

