-- ==== Sys2Proof/Machine/Construct.lean ====
section
/-! DEFINITION. CONSTRUCT (40_builder.md R114). -/

namespace Sys2Proof.Machine

/-- CONSTRUCT: install the instance `(r, m)`, or report a parameter error and change nothing else (R114;
60_exceptions.md R182, R188). -/
def execConstruct (r m : Nat) (s : State) : Host.Outcome State Fault Refusal :=
  if paramsOk s.cap r m then .next (finish .constructed (install r m s))
  else .next (finish .paramError s)

end Sys2Proof.Machine
end

