-- ==== Sys2Proof/Machine/Decoder.lean ====
section
/-! DEFINITION. The majority-logic decoder (42_decode.md R150 to R156) and DECODE (R157). -/

namespace Sys2Proof.Machine

/-- The decoder's result type (R156; 00_scope.md R8). -/
inductive DecodeResult where
  | decoded (w : Bits)
  | ambiguous
deriving DecidableEq, Repr

/-- The number of voting vectors of a family that vote 1 on the working vector `e` (R151). -/
def oneVotes (family : List Bits) (e : Bits) : Nat := (family.filter (dot2 e)).length

/-- One row's vote: `none` on an exact tie (R152), else the strict majority (R153). -/
def voteOn (family : List Bits) (e : Bits) : Option Bool :=
  if oneVotes family e = family.length - oneVotes family e then none
  else some (decide (family.length - oneVotes family e < oneVotes family e))

/-- The votes of the given rows on one `e` (R155(2)): their coefficients in order, or `none` if any ties. -/
def decideRows (t : Tables) (e : Bits) : List Nat → Option Bits
  | [] => some []
  | pos :: rest =>
    match voteOn (t.vote.getD pos []) e with
    | none => none
    | some b =>
      match decideRows t e rest with
      | none => none
      | some w => some (b :: w)

/-- `lower(d)` of the stored table (R150). -/
def lowerOf (t : Tables) (d : Nat) : Nat := t.lower.getD d 0

/-- `upper(d)` of the stored table (R150). -/
def upperOf (t : Tables) (d : Nat) : Nat := t.upper.getD d 0

/-- The rows `lower(d)` to `upper(d)` in increasing order (R150). -/
def rowsOf (t : Tables) (d : Nat) : List Nat := List.range' (lowerOf t d) (upperOf t d + 1 - lowerOf t d)

/-- The peel-off of degree `d`, whose coefficients are `w` (R154): `e xor s` with `s[c] = dot2(w, Col(c)[lo..hi])`. -/
def peelOff (t : Tables) (n d : Nat) (w e : Bits) : Bits :=
  vxor e ((List.range n).map (fun c => dot2 w (slice (columnOf t c) (lowerOf t d) (upperOf t d))))

/-- The degrees below `d`, from `d - 1` down to 0 (R150, R155): the coefficients of all their rows in increasing row order.
The peel-off of degree 0 is handed on and not read (R154; assumption log 14). -/
def decodeBelow (t : Tables) (n : Nat) : Nat → Bits → Option Bits
  | 0, _ => some []
  | d + 1, e =>
    match decideRows t e (rowsOf t d) with
    | none => none
    | some w =>
      match decodeBelow t n d (peelOff t n d w e) with
      | none => none
      | some lower => some (lower ++ w)

/-- `DecodeCore(e0)` for an instance of order `r` and block length `n` (R150, R156). -/
def decodeCore (t : Tables) (r n : Nat) (e0 : Bits) : DecodeResult :=
  match decodeBelow t n (r + 1) e0 with
  | some w => .decoded w
  | none => .ambiguous

/-- What DECODE does with the decoder's result (R157). -/
def reportDecoded (res : DecodeResult) (s : State) : State :=
  match res with
  | .ambiguous => failClearing .ambiguous s
  | .decoded w => finish .decoded (putOut s.msgLen w s)

/-- DECODE (R157), its checks in the order of 60_exceptions.md R188. -/
def execDecode (s : State) : Host.Outcome State Fault Refusal :=
  if s.cfg.valid = false then .next (failClearing .notConstructed s)
  else if s.inLen.toNat ≠ s.codeLen then .next (failClearing .lengthError s)
  else .next (reportDecoded (decodeCore s.tables s.order s.codeLen (s.inputVec s.codeLen)) s)

end Sys2Proof.Machine
end

