-- ==== Sys2Proof/Machine/Encoder.lean ====
section
/-! DEFINITION. The encoder (41_encode.md R140) and ENCODE (R142). -/

namespace Sys2Proof.Machine

/-- `EncodeCore(msg)`: element `c` is the mod-2 dot product of the message with column `c` (R140); `n` is the block length. -/
def encodeCore (t : Tables) (n : Nat) (msg : Bits) : Bits := (List.range n).map (fun c => dot2 msg (columnOf t c))

/-- ENCODE (R142), its checks in the order of 60_exceptions.md R188. -/
def execEncode (s : State) : Host.Outcome State Fault Refusal :=
  if s.cfg.valid = false then .next (failClearing .notConstructed s)
  else if s.inLen.toNat ≠ s.msgLen then .next (failClearing .lengthError s)
  else .next (finish .encoded (putOut s.codeLen (encodeCore s.tables s.codeLen (s.inputVec s.msgLen)) s))

end Sys2Proof.Machine
end

