-- ==== Sys2Proof/Machine/Dispatch.lean ====
section
/-! DEFINITION. One arm per row of the opcode table. -/

namespace Sys2Proof.Machine

def exec (i : Instr) (s : State) : Host.Outcome State Fault Refusal :=
  match i with
  | .construct r m => Sys2Proof.Machine.execConstruct r m s
  | .encode => Sys2Proof.Machine.execEncode s
  | .decode => Sys2Proof.Machine.execDecode s
  | .blockLength => Sys2Proof.Machine.execBlockLength s
  | .messageLength => Sys2Proof.Machine.execMessageLength s
  | .strength => Sys2Proof.Machine.execStrength s

end Sys2Proof.Machine
end

