-- ==== Sys2Proof/Machine/Agents.lean ====
section
/-! DEFINITION. What moves the block: the sequencer's completion step (70_reset_and_hazards.md R203), a host access
(20_memory.md R56 to R59; 70 R204) and reset (70 R200, R201), and which of them is next (assumption log 1). -/

namespace Sys2Proof.Machine

/-- `Complete()` (R203): decode the latched word and run the command, or report it illegal. -/
def completionStep (s : State) : Host.Outcome State Fault Refusal :=
  match decodeCommand s.latch with
  | .ok i => exec i s
  | .error _ => .next (rejectIllegal s)

/-- The sequencer's turn: its one step is enabled exactly when `STATUS.BUSY = 1` (R203). -/
def sequencerTurn (s : State) : Host.Outcome State Fault Refusal :=
  if s.status.busy then completionStep s else .next s

/-- A host access. A wrong width or alignment is refused (20_memory.md R56), and so is a write while busy (R204(1)). A read
of an accessor's address is that instruction (30_encoding.md R76). -/
def hostAccess (a : HostAccess) (s : State) : Host.Outcome State Fault Refusal :=
  match a with
  | .read addr width =>
    if admissible addr width = false then .refused .badAccess
    else
      match decodeRead addr with
      | some i => exec i s
      | none => .next (hostRead (locate s.cap addr) s)
  | .write addr width value =>
    if admissible addr width = false then .refused .badAccess
    else if s.status.busy then .refused .writeWhileBusy
    else .next (hostWrite (locate s.cap addr) value s)

/-- One outside event. -/
def takeInput (i : Input) (s : State) : Host.Outcome State Fault Refusal :=
  match i with
  | .access a => hostAccess a s
  | .sequencer => sequencerTurn s
  | .reset => .next (resetBlock s)

/-- The next thing that happens: the first outside event; with none left, the sequencer's turn (R205: a pending command
completes). -/
def nextTurn (s : State) : Host.Outcome State Fault Refusal :=
  match s.inputs with
  | [] => sequencerTurn s
  | i :: rest => takeInput i { s with inputs := rest }

/-- Places an opcode-table word where the next step takes it: an accessor's address as the host's next read, anything else as
the pending command word with the sequencer's turn next (assumption log 10). -/
def placeTableWord (s : State) (nbits w : Nat) : State :=
  match decodeRead (BitVec.ofNat 32 (w % 2 ^ nbits)) with
  | some _ => { s with inputs := .access (.read (BitVec.ofNat 32 (w % 2 ^ nbits)) 4) :: s.inputs }
  | none =>
    { s with latch := BitVec.ofNat 32 (w % 2 ^ nbits), status := ⟨s.status.result, true⟩, inputs := .sequencer :: s.inputs }

end Sys2Proof.Machine
end

