-- ==== Sys2Proof/Machine/Step.lean ====
section
/-! DEFINITION. The step of the machine, and where an instruction is placed to be the next one. -/

namespace Sys2Proof.Machine

/-- One step: the next outside event, or the sequencer (Machine/Agents.lean). -/
def step (s : State) : Host.Outcome State Fault Refusal := nextTurn s

/-- `s` with the opcode-table word `w` placed so that the next step runs it (assumption log 10). -/
def State.withFetchWord (s : State) (nbits w : Nat) : State := placeTableWord s nbits w

end Sys2Proof.Machine
end

