-- ==== Sys2Proof/Machine/Assembler.lean ====
section
/-! DEFINITION. The assembler of the three commands (30_encoding.md R77). A line is a list of characters; blanks may stand
around its tokens (assumption log 17). -/

namespace Sys2Proof.Machine

/-- The word of a command line, refused for an operand above 255 (R77) and for an accessor, which has no CMD encoding (R76). -/
def assemble (i : Instr) : Option Word := if i.isCommand && i.wellFormed then some (encode i) else none

/-- A blank between tokens. -/
def isBlank (ch : Char) : Bool := ch == ' ' || ch == '\t'

/-- The value of a decimal digit. -/
def decimalDigit (ch : Char) : Option Nat := if ch.isDigit then some (ch.toNat - 48) else none

/-- The value of a hexadecimal digit. -/
def hexDigit (ch : Char) : Option Nat :=
  if ch.isDigit then some (ch.toNat - 48)
  else if 97 ≤ ch.toNat && ch.toNat ≤ 102 then some (ch.toNat - 87)
  else if 65 ≤ ch.toNat && ch.toNat ≤ 70 then some (ch.toNat - 55)
  else none

/-- Reads digits of a base onto `acc`; the value and what follows. -/
def readDigits (base : Nat) (digit : Char → Option Nat) : Nat → List Char → Nat × List Char
  | acc, [] => (acc, [])
  | acc, ch :: rest =>
    match digit ch with
    | some d => readDigits base digit (acc * base + d) rest
    | none => (acc, ch :: rest)

/-- Reads a number that must have at least one digit. -/
def readNumberIn (base : Nat) (digit : Char → Option Nat) (line : List Char) : Option (Nat × List Char) :=
  match line with
  | [] => none
  | ch :: _ => if (digit ch).isSome then some (readDigits base digit 0 line) else none

/-- A number: `0x` hexadecimal, or decimal (R77). PRESUMED: the upper-case prefix `0X`, which R77 does not name, is read as
`0x` (assumption log 17). -/
def readNumber (line : List Char) : Option (Nat × List Char) :=
  match line with
  | '0' :: 'x' :: rest => readNumberIn 16 hexDigit rest
  | '0' :: 'X' :: rest => readNumberIn 16 hexDigit rest
  | _ => readNumberIn 10 decimalDigit line

/-- The operands `r, m` of CONSTRUCT, to the end of the line. -/
def readOperands (line : List Char) : Option Instr :=
  match readNumber (line.dropWhile isBlank) with
  | none => none
  | some (r, afterR) =>
    match afterR.dropWhile isBlank with
    | ',' :: rest =>
      match readNumber (rest.dropWhile isBlank) with
      | none => none
      | some (m, afterM) => if afterM.all isBlank then some (.construct r m) else none
    | _ => none

/-- Parses a line: the mnemonic in any case, then its operands; any other mnemonic is refused (R77). -/
def parseLine (line : List Char) : Option Instr :=
  let body := line.dropWhile isBlank
  let mnemonic := (body.takeWhile Char.isAlpha).map Char.toUpper
  let rest := body.dropWhile Char.isAlpha
  if mnemonic = "CONSTRUCT".toList then
    if (rest.take 1).all isBlank then readOperands rest else none
  else if mnemonic = "ENCODE".toList then if rest.all isBlank then some .encode else none
  else if mnemonic = "DECODE".toList then if rest.all isBlank then some .decode else none
  else none

/-- The word a line of text assembles to. -/
def assembleLine (line : List Char) : Option Word := (parseLine line).bind assemble

end Sys2Proof.Machine
end

