-- ==== Sys2Proof/Machine/HostProgram.lean ====
section
/-! DEFINITION. The host agent as 30_encoding.md R78 writes it down: programs of `WR`, `RD`, labels, `IF … GOTO` and
assignments, the pseudo-instructions with their expansions, and a run of a program beside the block (00_scope.md R9;
70_reset_and_hazards.md R208). Above the machine: `step` does not use it. What the notation leaves open is in assumption
log 16. -/

namespace Sys2Proof.Machine

/-- A host variable's or a label's name: one the program writes, or a fresh one of an expansion (R78). -/
inductive HostName where
  | named (x : String)
  | fresh (k : Nat)
deriving DecidableEq, Repr

/-- Integer expressions over host variables (R78). Comparisons give 1 or 0; `bit e i` is `e[i]`; `elem x i` is `x_i`. -/
inductive HostExpr where
  | lit (v : Int)
  | var (x : HostName)
  | elem (x : HostName) (i : HostExpr)
  | add (a b : HostExpr)
  | sub (a b : HostExpr)
  | xor (a b : HostExpr)
  | shl (a b : HostExpr)
  | and (a b : HostExpr)
  | bit (a : HostExpr) (i : Nat)
  | eq (a b : HostExpr)
  | ne (a b : HostExpr)
  | lt (a b : HostExpr)
  | le (a b : HostExpr)
deriving DecidableEq, Repr

/-- The primitive host operations (R78). `rd a x i` reads into `x_i`; a plain variable has index 0. -/
inductive HostLine where
  | wr (a v : HostExpr)
  | rd (a : HostExpr) (x : HostName) (i : HostExpr)
  | label (l : HostName)
  | ifGoto (c : HostExpr) (l : HostName)
  | assign (x : HostName) (i e : HostExpr)
deriving DecidableEq, Repr

/-- A line of a host program: a primitive or a pseudo-instruction (R78). -/
inductive HostMacro where
  | prim (l : HostLine)
  | construct (r m : Nat)
  | encode
  | decode
  | wait
  | loadv (v : Bits)
  | readv (len x : HostName)
deriving DecidableEq, Repr

/-- The host's variables: (name, index) and value. -/
abbrev HostVars := List ((HostName × Int) × Int)

/-- The value of `x_i`, if it has been assigned. -/
def lookupVar (x : HostName) (i : Int) : HostVars → Option Int
  | [] => none
  | p :: rest => if p.1 = (x, i) then some p.2 else lookupVar x i rest

/-- Assigns `x_i`. -/
def assignVar (x : HostName) (i v : Int) (vars : HostVars) : HostVars := ((x, i), v) :: vars.filter (fun p => p.1 != (x, i))

/-- The value of an expression; none where a variable is unassigned or a shift amount negative. -/
def HostExpr.eval (vars : HostVars) : HostExpr → Option Int
  | .lit v => some v
  | .var x => lookupVar x 0 vars
  | .elem x i => (i.eval vars).bind (fun n => lookupVar x n vars)
  | .add a b => (a.eval vars).bind (fun x => (b.eval vars).map (fun y => x + y))
  | .sub a b => (a.eval vars).bind (fun x => (b.eval vars).map (fun y => x - y))
  | .xor a b => (a.eval vars).bind (fun x => (b.eval vars).map (fun y => Int.xor x y))
  | .shl a b => (a.eval vars).bind (fun x => (b.eval vars).bind (fun y => if 0 ≤ y then some (x * 2 ^ y.toNat) else none))
  | .and a b => (a.eval vars).bind (fun x => (b.eval vars).map (fun y => Int.land x y))
  | .bit a i => (a.eval vars).map (fun x => if x.testBit i then 1 else 0)
  | .eq a b => (a.eval vars).bind (fun x => (b.eval vars).map (fun y => if x = y then 1 else 0))
  | .ne a b => (a.eval vars).bind (fun x => (b.eval vars).map (fun y => if x = y then 0 else 1))
  | .lt a b => (a.eval vars).bind (fun x => (b.eval vars).map (fun y => if x < y then 1 else 0))
  | .le a b => (a.eval vars).bind (fun x => (b.eval vars).map (fun y => if x ≤ y then 1 else 0))

/-- The word `Σ_b v[32w+b] << b` of a vector (R78, `LOADV`). -/
def vecWord (v : Bits) (w : Nat) : Int :=
  ((List.range 32).map (fun b => if v.getD (32 * w + b) false then (2 : Int) ^ b else 0)).sum

/-- `(m << 16) | (r << 8) | 0x01` (R78), exact whatever the operands. -/
def constructValue (r m : Nat) : Nat := (m <<< 16) ||| (r <<< 8) ||| 0x01

/-- The write of a value to CMD. -/
def issueLine (v : Nat) : HostLine := .wr (.lit 0x00000000) (.lit v)

/-- One line's expansion into primitives (R78); `k` numbers its fresh names. READV's count is known only when it runs, so its
`for` is a loop over a fresh variable. DESIGN CHOICE: R78 does not say that an operand of CONSTRUCT above 255 is refused, as R77
says of the assembler, and the host line writes the formula's exact value; one above 32 bits stops the run (assumption
log 16). -/
def HostMacro.expand (k : Nat) : HostMacro → List HostLine
  | .prim l => [l]
  | .construct r m => [issueLine (constructValue r m)]
  | .encode => [issueLine 0x00000002]
  | .decode => [issueLine 0x00000003]
  | .wait =>
    [.label (.fresh k), .rd (.lit 0x00000004) (.named "s") (.lit 0),
      .ifGoto (.eq (.bit (.var (.named "s")) 8) (.lit 1)) (.fresh k)]
  | .loadv v =>
    .wr (.lit 0x00000018) (.lit v.length) ::
      (List.range ((v.length + 31) / 32)).map (fun w : Nat => .wr (.lit (0x40000000 + 4 * (w : Int))) (.lit (vecWord v w)))
  | .readv len x =>
    [.rd (.lit 0x0000001C) len (.lit 0), .assign (.fresh k) (.lit 0) (.lit 0), .label (.fresh k),
      .ifGoto (.le (.var len) (.shl (.var (.fresh k)) (.lit 5))) (.fresh (k + 1)),
      .rd (.add (.lit 0x80000000) (.shl (.var (.fresh k)) (.lit 2))) x (.var (.fresh k)),
      .assign (.fresh k) (.lit 0) (.add (.var (.fresh k)) (.lit 1)), .ifGoto (.lit 1) (.fresh k), .label (.fresh (k + 1))]

/-- A host program's expansion, fresh names numbered from `k`. -/
def expandProgram : Nat → List HostMacro → List HostLine
  | _, [] => []
  | k, l :: rest => l.expand k ++ expandProgram (k + 2) rest

/-- A host program running beside the block. `pending` says that a command has been issued and has not ended (R208). -/
structure HostRun where
  block : State
  prog : List HostLine
  pos : Nat
  vars : HostVars
  pending : Bool
deriving DecidableEq, Repr

/-- A host value on the 32-bit bus. -/
def busWord (v : Int) : Option Word := if 0 ≤ v ∧ v < 2 ^ 32 then some (BitVec.ofInt 32 v) else none

/-- The block after one outside event, if it has a step for it. -/
def blockAfter (i : Input) (s : State) : Option State :=
  match step { s with inputs := [i] } with
  | .next t => some t
  | .fault _ => none
  | .refused _ => none

/-- `WR a, v`: the 32-bit write of R78. A write of CMD issues a command. -/
def runWrite (h : HostRun) (a v : Int) : Option HostRun :=
  match busWord a, busWord v with
  | some aw, some vw =>
    (blockAfter (.access (.write aw 4 vw)) h.block).map (fun b =>
      { h with block := b, pos := h.pos + 1, pending := h.pending || aw == 0x000#32 })
  | _, _ => none

/-- `RD a -> x`: the 32-bit read of R78. A read of STATUS that returns `BUSY = 0` ends the command (R208). -/
def runRead (h : HostRun) (a : Int) (x : HostName) (i : Int) : Option HostRun :=
  match busWord a with
  | some aw =>
    (blockAfter (.access (.read aw 4)) h.block).map (fun b =>
      { h with
        block := b
        pos := h.pos + 1
        vars := assignVar x i b.rdata.toNat h.vars
        pending := h.pending && !(aw == 0x004#32 && !b.rdata.getLsbD 8) })
  | none => none

/-- The place of a label. -/
def placeOf (l : HostName) (prog : List HostLine) : Option Nat := prog.findIdx? (fun x => x == .label l)

/-- The host's next line. -/
def runLine (h : HostRun) : HostLine → Option HostRun
  | .wr a v => (a.eval h.vars).bind (fun x => (v.eval h.vars).bind (runWrite h x))
  | .rd a x i => (a.eval h.vars).bind (fun y => (i.eval h.vars).bind (runRead h y x))
  | .label _ => some { h with pos := h.pos + 1 }
  | .ifGoto c l =>
    (c.eval h.vars).bind (fun x =>
      if x = 0 then some { h with pos := h.pos + 1 } else (placeOf l h.prog).map (fun p => { h with pos := p }))
  | .assign x i e =>
    (i.eval h.vars).bind (fun n => (e.eval h.vars).map (fun v => { h with pos := h.pos + 1, vars := assignVar x n v h.vars }))

/-- Who moves next (00_scope.md R9; 70_reset_and_hazards.md R200). -/
inductive Turn where
  | host
  | sequencer
  | reset
deriving DecidableEq, Repr

/-- One move of the two agents: none where the program has no meaning (20_memory.md R56; 70 R204(1)). A host past its last
line does nothing. DESIGN CHOICE: R208 says nothing of a run cut by reset; here the host goes on at the same line with its
variables, and a command the reset discarded still counts as pending until the host reads STATUS with `BUSY = 0` (assumption
log 16). -/
def HostRun.move (h : HostRun) : Turn → Option HostRun
  | .host =>
    match h.prog[h.pos]? with
    | some l => runLine h l
    | none => some h
  | .sequencer => (blockAfter .sequencer h.block).map (fun b => { h with block := b })
  | .reset => (blockAfter .reset h.block).map (fun b => { h with block := b })

/-- A schedule of moves. -/
def HostRun.moves (h : HostRun) : List Turn → Option HostRun
  | [] => some h
  | t :: rest => (h.move t).bind (fun h' => h'.moves rest)

/-- A run has ended when the program has executed its last line and its last command has ended (R208). -/
def HostRun.ended (h : HostRun) : Bool := decide (h.prog.length ≤ h.pos) && !h.pending

/-- A program placed beside a block, before its first line. -/
def HostRun.start (s : State) (prog : List HostMacro) : HostRun := ⟨s, expandProgram 0 prog, 0, [], false⟩

end Sys2Proof.Machine
end

