-- ==== Sys2Proof/Safety.lean ====
section
/-! DEFINITION. What holds of every state a run reaches, and what a run with no refused access is. -/

namespace Sys2Proof.Machine

/-- CFG holds an accepted pair, or its reset value (10_state.md R23). -/
def State.CfgLegal (s : State) : Prop :=
  (s.cfg.valid = true → s.order < s.vars ∧ s.vars ≤ s.cap.mMax) ∧
  (s.cfg.valid = false → s.cfg.r = 0#8 ∧ s.cfg.m = 0#8)

/-- TABLES is the function of CFG that R36 says it is. -/
def State.TablesMatch (s : State) : Prop :=
  s.tables = if s.cfg.valid then buildTables s.order s.vars else Tables.empty

/-- Both buffers are in canonical form. -/
def State.BuffersWf (s : State) : Prop := s.inData.wf s.cap = true ∧ s.outData.wf s.cap = true

/-- OUT_DATA is all 0 (10_state.md R34). -/
def State.OutClear (s : State) : Prop := ∀ i, s.outData.bit s.cap i = false

/-- What RESULT says about the other registers (10_state.md R28, R33, R34). CONSTRUCTED and ILLEGAL_COMMAND say nothing about
the output. -/
def State.OutMatchesResult (s : State) : Prop :=
  match s.status.result with
  | .none => s.cfg.valid = false ∧ s.outLen = 0#32
  | .constructed => s.cfg.valid = true
  | .encoded => s.cfg.valid = true ∧ s.outLen = s.nReg
  | .decoded => s.cfg.valid = true ∧ s.outLen = s.kReg
  | .ambiguous => s.cfg.valid = true ∧ s.outLen = 0#32 ∧ s.OutClear
  | .paramError => True
  | .lengthError => s.cfg.valid = true ∧ s.outLen = 0#32 ∧ s.OutClear
  | .notConstructed => s.cfg.valid = false ∧ s.outLen = 0#32 ∧ s.OutClear
  | .illegalCommand => True

/-- Once a command has written OUT_DATA, every bit at index OUT_LEN or above is 0 (10_state.md R34). -/
def State.OutPadded (s : State) : Prop :=
  s.outData.fill = .zero → ∀ i, s.outLen.toNat ≤ i → s.outData.bit s.cap i = false

/-- The invariant of the block. -/
structure State.Inv (s : State) : Prop where
  cfgLegal : s.CfgLegal
  tablesMatch : s.TablesMatch
  buffersWf : s.BuffersWf
  outMatchesResult : s.OutMatchesResult
  outPadded : s.OutPadded

/-- The host keeps its obligations in this event (20_memory.md R56; 70_reset_and_hazards.md R204(1)). -/
def State.Admits (s : State) : Input → Prop
  | .access (.read addr width) => admissible addr width = true
  | .access (.write addr width _) => admissible addr width = true ∧ s.status.busy = false
  | .sequencer => True
  | .reset => True

/-- `t` is `s` after an outcome with no output: the code, `BUSY` 0, OUT_LEN 0, every bit of OUT_DATA 0, and nothing else
changed (60_exceptions.md R183 to R185). -/
def ClearedWith (code : Result) (s t : State) : Prop :=
  t = { s with status := ⟨code, false⟩, outLen := 0#32, outData := t.outData } ∧ ∀ i, t.outData.bit s.cap i = false

/-- `t` is `s` after an outcome with the output vector `v` of `len` elements, every other bit of OUT_DATA 0, and nothing else
changed (10_state.md R33, R34). -/
def AnsweredWith (code : Result) (len : Nat) (v : Bits) (s t : State) : Prop :=
  t = { s with status := ⟨code, false⟩, outLen := BitVec.ofNat 32 len, outData := t.outData } ∧
  ∀ i, t.outData.bit s.cap i = (decide (i < len) && v.getD i false)

/-- The sequencer moves next (assumption log 1). -/
def State.SequencerNext (s : State) (rest : List Input) : Prop := s.inputs = .sequencer :: rest ∨ (s.inputs = [] ∧ rest = [])

/-- A run of `n` steps with no refusal. -/
def State.SafeFor (s : State) (n : Nat) : Prop := ∃ t, Sys2Proof.core.run n s = .next t

end Sys2Proof.Machine
end

