-- ==== Sys2Proof/Certificates/Slice0/Obligations.lean ====
section
/-! DEFINITION. What is claimed of the model: each statement a Prop, proved elsewhere. -/

open Sys2Proof Sys2Proof.Machine

/-! ## A step, the decoder and the encoder -/

/-- The sequencer's step is the completion step, and it runs the command the latched word decodes to
(70_reset_and_hazards.md, completion step). Its own event is taken off the inputs (the model's: assumption log 1). -/
def Obligations.SequencerStepRunsTheDecodedCommand : Prop :=
  ∀ (s : State) (rest : List Input), s.SequencerNext rest → s.status.busy = true →
    step s = completionStep { s with inputs := rest } ∧
    ∀ i, decodeCommand s.latch = .ok i → step s = exec i { s with inputs := rest }

/-- With no command pending the sequencer has no step: its turn changes nothing (70_reset_and_hazards.md, completion step;
the model's turn: assumption log 1). -/
def Obligations.SequencerIsIdleWhileNotBusy : Prop :=
  ∀ (s : State) (rest : List Input), s.SequencerNext rest → s.status.busy = false → step s = .next { s with inputs := rest }

/-- A host read of an accessor's address runs that accessor (30_encoding.md, accessors). -/
def Obligations.HostReadOfAnAccessorAddressRunsTheAccessor : Prop :=
  ∀ (s : State) (rest : List Input) (a : Word) (i : Instr), s.inputs = .access (.read a 4) :: rest →
    decodeRead a = some i → step s = exec i { s with inputs := rest }

/-- A placed opcode-table word is the very next instruction, and placing it changes nothing but the pending command
(the model's: assumption log 10). -/
def Obligations.PlacedTableWordIsTheNextInstruction : Prop :=
  ∀ (s : State) (nbits w : Nat) (i : Instr), decodeTableWord nbits w = some i →
    ∃ s', step (s.withFetchWord nbits w) = exec i s' ∧
      s' = { s with latch := s'.latch, status := ⟨s.status.result, s'.status.busy⟩ }

/-- The completion step of an illegal word writes its code and nothing else (60_exceptions.md R186). -/
def Obligations.IllegalWordChangesOnlyTheResult : Prop :=
  ∀ s : State, legalWord s.latch = false →
    completionStep s = .next { s with status := ⟨.illegalCommand, false⟩ }

/-- The decoder accepts exactly the legal words, by fields and by match and mask, each as one command (30_encoding.md R73). -/
def Obligations.DecoderAcceptsExactlyTheLegalWords : Prop :=
  ∀ v : Word,
    (legalWord v = true ↔
      (v.extractLsb' 0 8 = 0x01#8 ∧ v.extractLsb' 24 8 = 0#8) ∨
      (v.extractLsb' 0 8 = 0x02#8 ∧ v.extractLsb' 8 24 = 0#24) ∨
      (v.extractLsb' 0 8 = 0x03#8 ∧ v.extractLsb' 8 24 = 0#24)) ∧
    ((∃ i, decodeCommand v = .ok i) ↔ legalWord v = true) ∧
    (v &&& 0xFF0000FF#32 = 0x00000001#32 ↔
      decodeCommand v = .ok (.construct (v.toNat / 2 ^ 8 % 2 ^ 8) (v.toNat / 2 ^ 16 % 2 ^ 8))) ∧
    (v &&& 0xFFFFFFFF#32 = 0x00000002#32 ↔ decodeCommand v = .ok .encode) ∧
    (v &&& 0xFFFFFFFF#32 = 0x00000003#32 ↔ decodeCommand v = .ok .decode)

/-- Decoding an encoded well-formed instruction gives it back, every operand value included. -/
def Obligations.DecodeOfEncodeIsTheInstruction : Prop :=
  ∀ i : Instr, i.WellFormed → decodeTableWord 32 (encode i).toNat = some i

/-- Every word the command decoder accepts is the encoding of what it gives. -/
def Obligations.EncodeOfDecodedCommandIsTheWord : Prop :=
  ∀ (v : Word) (i : Instr), decodeCommand v = .ok i → i.WellFormed ∧ i.isCommand = true ∧ encode i = v

/-- Words of 95_test_vectors.md section 2.4 and the accessor addresses of 30_encoding.md decode as listed there. -/
def Obligations.DecoderReadsTheListedWords : Prop :=
  decodeCommand 0x00030101#32 = .ok (.construct 1 3) ∧ decodeCommand 0x00FFFF01#32 = .ok (.construct 255 255) ∧
  decodeCommand 0x00000002#32 = .ok .encode ∧ decodeCommand 0x00000003#32 = .ok .decode ∧
  decodeCommand 0x00000000#32 = .error .reservedOpcode ∧ decodeCommand 0x01030101#32 = .error .reservedField ∧
  decodeCommand 0x00000102#32 = .error .operandOnPlainCommand ∧ decodeCommand 0x80000003#32 = .error .operandOnPlainCommand ∧
  decodeCommand 0x000000FF#32 = .error .reservedOpcode ∧
  decodeRead 0x0000000C#32 = some .blockLength ∧ decodeRead 0x00000010#32 = some .messageLength ∧
  decodeRead 0x00000014#32 = some .strength

/-- The assembler of 30_encoding.md: the three lines' words, and operands above 255 refused. -/
def Obligations.AssemblerGivesTheCommandWords : Prop :=
  (∀ r m : Nat, r ≤ 255 → m ≤ 255 → ∃ w, assemble (.construct r m) = some w ∧ w.toNat = 2 ^ 16 * m + 2 ^ 8 * r + 1) ∧
  (∀ r m : Nat, (255 < r ∨ 255 < m) → assemble (.construct r m) = none) ∧
  assemble .encode = some 0x00000002#32 ∧ assemble .decode = some 0x00000003#32

/-! ## CONSTRUCT -/

/-- CONSTRUCT of an accepted pair installs the instance and changes nothing else; CFG then reads with `VALID`, `M` and `R` in
their places (40_builder.md, CONSTRUCT). -/
def Obligations.ConstructInstallsTheInstance : Prop :=
  ∀ (s : State) (r m : Nat), r < m → m ≤ s.cap.mMax →
    ∃ t, exec (.construct r m) s = .next t ∧
      t = { s with cfg := t.cfg, tables := buildTables r m, status := ⟨.constructed, false⟩ } ∧
      t.cfg.word.toNat = 2 ^ 31 + 2 ^ 8 * m + r ∧ t.cfg.valid = true ∧ t.order = r ∧ t.vars = m

/-- A parameter error changes only the result, so an earlier instance stays usable (60_exceptions.md R182). -/
def Obligations.ParameterErrorChangesOnlyTheResult : Prop :=
  ∀ s : State, s.latch &&& 0xFF0000FF#32 = 0x00000001#32 →
    (s.latch.toNat / 2 ^ 16 % 2 ^ 8 ≤ s.latch.toNat / 2 ^ 8 % 2 ^ 8 ∨ s.cap.mMax < s.latch.toNat / 2 ^ 16 % 2 ^ 8) →
    completionStep s = .next { s with status := ⟨.paramError, false⟩ }

/-! ## ENCODE and DECODE -/

/-- ENCODE with an instance and `IN_LEN = K` puts out the codeword of the message in IN_DATA, sets `OUT_LEN = N`, and changes
nothing else (41_encode.md, ENCODE). -/
def Obligations.EncodePutsOutTheCodeword : Prop :=
  ∀ s : State, s.CfgLegal → s.TablesMatch → s.cfg.valid = true → s.inLen = s.kReg →
    ∃ t, exec .encode s = .next t ∧
      AnsweredWith .encoded (2 ^ s.vars)
        (encodeCore (buildTables s.order s.vars) (2 ^ s.vars) (s.inData.readVec s.cap s.kReg.toNat)) s t

/-- DECODE with an instance and `IN_LEN = N` puts out the message DecodeCore gives, sets `OUT_LEN = K`, and changes nothing
else (42_decode.md, DECODE). -/
def Obligations.DecodePutsOutTheMessage : Prop :=
  ∀ (s : State) (w : Bits), s.CfgLegal → s.TablesMatch → s.cfg.valid = true → s.inLen = s.nReg →
    decodeCore (buildTables s.order s.vars) s.order (2 ^ s.vars) (s.inData.readVec s.cap s.nReg.toNat) = .decoded w →
    w.length = s.kReg.toNat ∧ ∃ t, exec .decode s = .next t ∧ AnsweredWith .decoded s.kReg.toNat w s t

/-- An ambiguous decode clears the output and reports its own code (60_exceptions.md R184). -/
def Obligations.AmbiguousDecodeClearsTheOutput : Prop :=
  ∀ s : State, s.CfgLegal → s.TablesMatch → s.cfg.valid = true → s.inLen = s.nReg →
    decodeCore (buildTables s.order s.vars) s.order (2 ^ s.vars) (s.inData.readVec s.cap s.nReg.toNat) = .ambiguous →
    ∃ t, exec .decode s = .next t ∧ ClearedWith .ambiguous s t ∧ t.status.word = 4#32 ∧ s.kReg ≠ 0#32

/-- A length mismatch, with an instance, clears the output (60_exceptions.md R183). -/
def Obligations.LengthMismatchClearsTheOutput : Prop :=
  ∀ s : State, s.CfgLegal → s.cfg.valid = true →
    (s.inLen ≠ s.kReg → ∃ t, exec .encode s = .next t ∧ ClearedWith .lengthError s t) ∧
    (s.inLen ≠ s.nReg → ∃ t, exec .decode s = .next t ∧ ClearedWith .lengthError s t)

/-- ENCODE and DECODE with no instance clear the output (60_exceptions.md R185). -/
def Obligations.WithoutAnInstanceTheOutputIsCleared : Prop :=
  ∀ s : State, s.cfg.valid = false →
    (∃ t, exec .encode s = .next t ∧ ClearedWith .notConstructed s t) ∧
    (∃ t, exec .decode s = .next t ∧ ClearedWith .notConstructed s t)

/-- ENCODE looks only at elements `0..k-1` of IN_DATA and DECODE only at elements `0..n-1` (10_state.md, IN_DATA;
41_encode.md): two states that differ in no other place give the same answer. -/
def Obligations.CommandsIgnoreBitsBeyondTheVector : Prop :=
  ∀ (s : State) (b : Buffer), s.cfg.valid = true →
    ((∀ i < s.msgLen, b.bit s.cap i = s.inData.bit s.cap i) →
      ∃ t, exec .encode s = .next t ∧ exec .encode { s with inData := b } = .next { t with inData := b }) ∧
    ((∀ i < s.codeLen, b.bit s.cap i = s.inData.bit s.cap i) →
      ∃ t, exec .decode s = .next t ∧ exec .decode { s with inData := b } = .next { t with inData := b })

/-- Every command completes with the one outcome of the priority list (60_exceptions.md R188). -/
def Obligations.EveryCommandHasItsOneOutcome : Prop :=
  ∀ s : State, s.CfgLegal →
    ∃ t, completionStep s = .next t ∧ t.status.busy = false ∧ t.status.result =
      if legalWord s.latch = false then .illegalCommand
      else if s.latch.extractLsb' 0 8 = 0x01#8 then
        if (s.latch.extractLsb' 16 8).toNat ≤ (s.latch.extractLsb' 8 8).toNat ∨
            s.cap.mMax < (s.latch.extractLsb' 16 8).toNat then .paramError
        else .constructed
      else if s.cfg.valid = false then .notConstructed
      else if s.latch = 0x00000002#32 then
        if s.inLen ≠ s.kReg then .lengthError else .encoded
      else if s.inLen ≠ s.nReg then .lengthError
      else if decodeCore s.tables s.order (2 ^ s.vars) (s.inData.readVec s.cap s.nReg.toNat) = .ambiguous then .ambiguous
      else .decoded

/-! ## The accessors and the registers -/

/-- The accessors return `n`, `k` and `t` of the instance, or 0 with none, and change nothing in the block (40_builder.md,
accessors). -/
def Obligations.AccessorsReturnTheParameters : Prop :=
  ∀ s : State, s.status.busy = false → s.CfgLegal →
    exec .blockLength s = .next { s with rdata := if s.cfg.valid then BitVec.ofNat 32 (2 ^ s.vars) else 0#32 } ∧
    exec .messageLength s = .next
      { s with rdata := if s.cfg.valid then BitVec.ofNat 32 (∑ i ∈ Finset.range (s.order + 1), s.vars.choose i) else 0#32 } ∧
    exec .strength s = .next
      { s with rdata := if s.cfg.valid then BitVec.ofNat 32 (2 ^ (s.vars - s.order - 1) - 1) else 0#32 }

/-- While busy an accessor still completes, with a free draw for the host (40_builder.md, accessors, corner cases). -/
def Obligations.AccessorsWhileBusyReturnAFreeDraw : Prop :=
  ∀ (s : State) (i : Instr), s.status.busy = true → i.isCommand = false →
    exec i s = .next { s with rdata := Config.freeWord s.draws, draws := s.draws + 1 }

/-- `n`, `k` and `t` fit their registers, `K ≤ N`, and `T = 0` exactly for `R = M - 1` (10_state.md, N, K and T;
40_builder.md, invariants). -/
def Obligations.ParametersFitTheirRegisters : Prop :=
  ∀ s : State, s.CfgLegal → s.cfg.valid = true →
    s.nReg.toNat = 2 ^ s.vars ∧ s.kReg.toNat = ∑ i ∈ Finset.range (s.order + 1), s.vars.choose i ∧
    s.tReg.toNat = 2 ^ (s.vars - s.order - 1) - 1 ∧ 1 ≤ s.kReg.toNat ∧ s.kReg.toNat ≤ s.nReg.toNat ∧
    (s.tReg = 0#32 ↔ s.order = s.vars - 1)

/-- The fields of CFG, STATUS and CAPS as the host reads them, and the codes of RESULT (10_state.md). -/
def Obligations.RegisterFieldsStandInTheirPlaces : Prop :=
  (∀ g : Cfg, g.word.extractLsb' 0 8 = g.r ∧ g.word.extractLsb' 8 8 = g.m ∧ g.word.extractLsb' 16 15 = 0#15 ∧
    g.word.getLsbD 31 = g.valid) ∧
  (∀ x : Status, x.word.extractLsb' 0 4 = x.result.code ∧ x.word.extractLsb' 4 4 = 0#4 ∧ x.word.getLsbD 8 = x.busy ∧
    x.word.extractLsb' 9 23 = 0#23) ∧
  (∀ s : State, s.capsReg.toNat = s.cap.mMax) ∧
  ([Result.none, .constructed, .encoded, .decoded, .ambiguous, .paramError, .lengthError, .notConstructed,
    .illegalCommand].map Result.code = (List.range 9).map (BitVec.ofNat 4))

/-! ## The host interface -/

/-- A host read while no command is pending returns what the address map says, 0 for an unmapped address and for CMD, and
changes nothing in the block (20_memory.md, address space). -/
def Obligations.ReadsFollowTheAddressMap : Prop :=
  ∀ (s : State) (rest : List Input) (a : Word), s.status.busy = false → s.inputs = .access (.read a 4) :: rest →
    a.toNat % 4 = 0 →
    ∃ v, step s = .next { s with inputs := rest, rdata := v } ∧
      (a = 0x000#32 → v = 0#32) ∧ (a = 0x004#32 → v = s.status.word) ∧ (a = 0x008#32 → v = s.cfg.word) ∧
      (a = 0x00C#32 → v = s.nReg) ∧ (a = 0x010#32 → v = s.kReg) ∧ (a = 0x014#32 → v = s.tReg) ∧
      (a = 0x018#32 → v = s.inLen) ∧ (a = 0x01C#32 → v = s.outLen) ∧ (a = 0x020#32 → v = s.capsReg) ∧
      (0x024 ≤ a.toNat → a.toNat < 0x40000000 → v = 0#32) ∧
      (∀ w < s.cap.words, a.toNat = 0x40000000 + 4 * w → v = s.inData.wordAt s.cap w) ∧
      (0x40000000 + 4 * s.cap.words ≤ a.toNat → a.toNat < 0x80000000 → v = 0#32) ∧
      (∀ w < s.cap.words, a.toNat = 0x80000000 + 4 * w → v = s.outData.wordAt s.cap w) ∧
      (0x80000000 + 4 * s.cap.words ≤ a.toNat → v = 0#32)

/-- A host write while no command is pending reaches CMD, IN_LEN and IN_DATA and is ignored everywhere else
(10_state.md R30's first sentence on a write; 20_memory.md, unmapped and read-only locations). -/
def Obligations.WritesReachOnlyCmdInLenAndInData : Prop :=
  ∀ (s : State) (rest : List Input) (a v : Word), s.status.busy = false → s.inputs = .access (.write a 4 v) :: rest →
    a.toNat % 4 = 0 →
    (a = 0x000#32 → step s = .next { s with inputs := rest, latch := v, status := ⟨s.status.result, true⟩ }) ∧
    (a = 0x018#32 → step s = .next { s with inputs := rest, inLen := v }) ∧
    (∀ w < s.cap.words, a.toNat = 0x40000000 + 4 * w →
      step s = .next { s with inputs := rest, inData := s.inData.setWord s.cap w v }) ∧
    (a ≠ 0x000#32 → a ≠ 0x018#32 → (a.toNat < 0x40000000 ∨ 0x40000000 + 4 * s.cap.words ≤ a.toNat) →
      step s = .next { s with inputs := rest })

/-- A word written to a buffer reads back in the bits that exist, and no other word changes (10_state.md, IN_DATA). -/
def Obligations.BufferWordReadsBackAsWritten : Prop :=
  ∀ (c : Capacity) (b : Buffer) (w w' : Nat) (v : Word) (i : Nat), i < 32 →
    ((b.setWord c w v).wordAt c w').getLsbD i =
      if w' = w then v.getLsbD i && decide (32 * w + i < c.nMax) else (b.wordAt c w').getLsbD i

/-- Only aligned 32-bit accesses have a step (20_memory.md, alignment and widths). The name of the refusal, and that it is this
one also for a write while `BUSY = 1`, are the model's choice (assumption log 11). -/
def Obligations.MisalignedOrNarrowAccessIsRefused : Prop :=
  ∀ (s : State) (rest : List Input) (a v : Word) (width : Nat), (width ≠ 4 ∨ a.toNat % 4 ≠ 0) →
    (s.inputs = .access (.read a width) :: rest → step s = .refused .badAccess) ∧
    (s.inputs = .access (.write a width v) :: rest → step s = .refused .badAccess)

/-- The busy protocol (70_reset_and_hazards.md, issue and completion). The name of the refusal is the model's (assumption
log 11). -/
def Obligations.BusyProtocolHolds : Prop :=
  ∀ (s : State) (rest : List Input) (a : Word), s.status.busy = true → a.toNat % 4 = 0 →
    (∀ v, s.inputs = .access (.write a 4 v) :: rest → step s = .refused .writeWhileBusy) ∧
    (s.inputs = .access (.read a 4) :: rest → a = 0x004#32 →
      ∃ x, step s = .next { s with inputs := rest, rdata := x, draws := s.draws + 1 } ∧ x.getLsbD 8 = true ∧
        x.extractLsb' 4 4 = 0#4 ∧ x.extractLsb' 9 23 = 0#23 ∧
        x.extractLsb' 0 4 = (Config.freeWord s.draws).extractLsb' 0 4) ∧
    (s.inputs = .access (.read a 4) :: rest → a ≠ 0x004#32 →
      step s = .next { s with inputs := rest, rdata := Config.freeWord s.draws, draws := s.draws + 1 }) ∧
    (∀ t, step s = .next t → s.inputs.head? ≠ some .reset →
      t.inLen = s.inLen ∧ t.inData = s.inData ∧ t.latch = s.latch)

/-- The machine has a next step exactly when the host keeps its obligations: nothing else stops it (93, "No behaviour of this
spec has the treatment `fault` or `stuck`"; 20_memory.md; 70_reset_and_hazards.md). -/
def Obligations.OnlyTheHostCanStopTheMachine : Prop :=
  ∀ s : State, (∃ t, step s = .next t) ↔ ∀ (i : Input) (rest : List Input), s.inputs = i :: rest → s.Admits i

/-- A pending command completes at the sequencer's turn, after any finite number of host reads (70_reset_and_hazards.md,
progress). -/
def Obligations.PendingCommandCompletesAfterFinitelyManyReads : Prop :=
  ∀ (s : State) (reads : List Word) (rest : List Input), s.status.busy = true → (∀ a ∈ reads, a.toNat % 4 = 0) →
    s.inputs = reads.map (fun a => .access (.read a 4)) ++ .sequencer :: rest →
    ∃ t, core.run (reads.length + 1) s = .next t ∧ t.status.busy = false ∧ t.inputs = rest

/-- The host program line `LOADV v` leaves `v` in IN_DATA and its length in IN_LEN (30_encoding.md, host-program notation). -/
def Obligations.LoadvPlacesTheVector : Prop :=
  ∀ (s : State) (v : Bits), s.status.busy = false → v.length ≤ s.cap.nMax →
    ∃ h, (HostRun.start s [.loadv v]).moves (List.replicate (1 + (v.length + 31) / 32) .host) = some h ∧
      h.ended = true ∧ h.block.inLen.toNat = v.length ∧ h.block.inData.readVec s.cap v.length = v

/-- `WAIT` beside a pending command (30_encoding.md, host-program notation; 70_reset_and_hazards.md, progress and the end of a
command). Whatever number of moves the host makes before the sequencer, the host is inside the loop of three lines, back at its
first line after every third, and the run has not ended; once the command has completed, the run ends within four more host
moves, with the block as the completion step left it, apart from the model's own `rdata` and `draws`. -/
def Obligations.WaitEndsOnceTheCommandHasCompleted : Prop :=
  ∀ (s : State) (n : Nat), s.status.busy = true →
    ∃ g h t, ({ HostRun.start s [.wait] with pending := true } : HostRun).moves (List.replicate n .host) = some g ∧
      g.pos = n % 3 ∧ g.pending = true ∧ g.ended = false ∧ g.block.status.busy = true ∧
      g.moves (.sequencer :: List.replicate 4 .host) = some h ∧ h.ended = true ∧
      completionStep { s with inputs := [] } = .next t ∧ t.status.busy = false ∧
      h.block = { t with rdata := t.status.word, draws := h.block.draws }

/-! ## Whole-machine rules -/

/-- BUSY is set only by a host write of CMD, and cleared only by a completion step or reset (10_state.md, STATUS). -/
def Obligations.BusyChangesOnlyByIssueCompletionOrReset : Prop :=
  ∀ s t : State, step s = .next t →
    (s.status.busy = false → t.status.busy = true →
      ∃ v, s.inputs.head? = some (.access (.write 0x000#32 4 v)) ∧ t.latch = v) ∧
    (s.status.busy = true → t.status.busy = false →
      s.inputs = [] ∨ s.inputs.head? = some .sequencer ∨ s.inputs.head? = some .reset)

/-- CFG and TABLES change only by a CONSTRUCT that completes with CONSTRUCTED, or by reset; and only reset clears VALID
(10_state.md, CFG and TABLES). -/
def Obligations.OnlyConstructAndResetChangeTheInstance : Prop :=
  ∀ s t : State, step s = .next t → s.inputs.head? ≠ some .reset →
    (t.cfg ≠ s.cfg ∨ t.tables ≠ s.tables →
      s.status.busy = true ∧ t.status.result = .constructed ∧
      ∃ r m, decodeCommand s.latch = .ok (.construct r m) ∧ r < m ∧ m ≤ s.cap.mMax) ∧
    (s.cfg.valid = true → t.cfg.valid = true) ∧ t.cap = s.cap

/-- No command writes IN_LEN or IN_DATA: only a host write to it, or reset, changes it (10_state.md, IN_LEN and IN_DATA). -/
def Obligations.OnlyHostWritesAndResetChangeTheInput : Prop :=
  ∀ s t : State, step s = .next t → s.inputs.head? ≠ some .reset →
    (t.inLen ≠ s.inLen → ∃ v, s.inputs.head? = some (.access (.write 0x018#32 4 v)) ∧ t.inLen = v) ∧
    (t.inData ≠ s.inData → ∃ a v, s.inputs.head? = some (.access (.write a 4 v)) ∧ 0x40000000 ≤ a.toNat ∧
      a.toNat < 0x40000000 + 4 * s.cap.words)

/-- OUT_LEN and OUT_DATA change only by the completion of an ENCODE or a DECODE, or by reset (10_state.md, OUT_LEN and
OUT_DATA). -/
def Obligations.OnlyEncodeDecodeAndResetChangeTheOutput : Prop :=
  ∀ s t : State, step s = .next t → s.inputs.head? ≠ some .reset → t.outLen ≠ s.outLen ∨ t.outData ≠ s.outData →
    s.status.busy = true ∧ (s.latch = 0x00000002#32 ∨ s.latch = 0x00000003#32)

/-- The reset event, at any time, also while busy (70_reset_and_hazards.md, reset). What it leaves in IN_DATA, OUT_DATA and
LATCH is not said. -/
def Obligations.ResetEventLeavesTheResetValues : Prop :=
  ∀ (s : State) (rest : List Input), s.inputs = .reset :: rest →
    ∃ t, step s = .next t ∧ t.inputs = rest ∧ t.cfg.word = 0#32 ∧ t.status.word = 0#32 ∧ t.nReg = 0#32 ∧ t.kReg = 0#32 ∧
      t.tReg = 0#32 ∧ t.inLen = 0#32 ∧ t.outLen = 0#32 ∧ t.tables = Tables.empty ∧ t.cap = s.cap

/-- `State.reset` holds the values 10_state.md gives for reset. -/
def Obligations.ResetStateHoldsTheResetValues : Prop :=
  State.reset.cfg.word = 0#32 ∧ State.reset.status.word = 0#32 ∧ State.reset.nReg = 0#32 ∧ State.reset.kReg = 0#32 ∧
  State.reset.tReg = 0#32 ∧ State.reset.inLen = 0#32 ∧ State.reset.outLen = 0#32 ∧ State.reset.tables = Tables.empty ∧
  State.reset.capsReg.toNat = Config.capacity.mMax

/-- The invariant holds after reset. -/
def Obligations.ResetStateMeetsTheInvariant : Prop := State.reset.Inv

/-- Every step keeps the invariant: CFG legal, TABLES the function of CFG, the buffers canonical, the output as RESULT says and
0 beyond OUT_LEN (10_state.md). -/
def Obligations.EveryStepKeepsTheInvariant : Prop := ∀ s t : State, s.Inv → step s = .next t → t.Inv

/-! ## The table builder -/

/-- The monomials are the subsets of at most `r` variables, by degree, each once, `k` in all; row 0 is empty and rows 1 to `m`
are the single variables (40_builder.md R103). -/
def Obligations.MonomialsAreTheSubsetsByDegree : Prop :=
  ∀ r m : Nat, r < m →
    (∀ S, S ∈ monomials r m ↔ S.Pairwise (· < ·) ∧ (∀ i ∈ S, i < m) ∧ S.length ≤ r) ∧ (monomials r m).Nodup ∧
    (monomials r m).Pairwise (fun A B => A.length ≤ B.length) ∧
    monomials r m = (List.range (r + 1)).flatMap (subsets m) ∧ (∀ d ≤ m, (subsets m d).length = m.choose d) ∧
    (monomials r m).length = ∑ i ∈ Finset.range (r + 1), m.choose i ∧
    (monomials r m)[0]? = some [] ∧ (1 ≤ r → ∀ i < m, (monomials r m)[i + 1]? = some [i])

/-- `Subsets(m, d)` is every `d`-element subset as an increasing tuple, in increasing lexicographic order
(40_builder.md R104). -/
def Obligations.SubsetsAreInLexicographicOrder : Prop :=
  ∀ m d : Nat, (∀ S, S ∈ subsets m d ↔ S.Pairwise (· < ·) ∧ (∀ i ∈ S, i < m) ∧ S.length = d) ∧
    (subsets m d).Pairwise (fun A B => ∃ p < d, (∀ q < p, A.getD q 0 = B.getD q 0) ∧ A.getD p 0 < B.getD p 0) ∧
    subsets m 0 = [[]]

/-- `X_i` is the tiled pattern of runs, ones first, and so the complement of bit `m-1-i` of the point (40_builder.md R105). -/
def Obligations.VariableVectorIsTheTiledRunPattern : Prop :=
  ∀ m i : Nat, i < m →
    variableVector m i =
      (List.replicate (2 ^ i) (ones (2 ^ (m - i - 1)) ++ zeros (2 ^ (m - i - 1)))).flatten ∧
    ∀ c < 2 ^ m, ((variableVector m i).getD c false = true ↔ c / 2 ^ (m - i - 1) % 2 = 0) ∧
      ((variableVector m i).getD c false = true ↔ c.testBit (m - 1 - i) = false)

/-- The evaluation vector of a monomial is the coordinatewise product of its variables' vectors, in any order, and all ones
for the empty monomial (40_builder.md R106). -/
def Obligations.EvaluationVectorIsTheProduct : Prop :=
  ∀ m : Nat, evalVector m [] = ones (2 ^ m) ∧
    (∀ (i : Nat) (S : List Nat), evalVector m (i :: S) = vand (variableVector m i) (evalVector m S)) ∧
    (∀ S S' : List Nat, S.Perm S' → evalVector m S = evalVector m S') ∧
    (∀ (S : List Nat) (c : Nat), c < 2 ^ m →
      ((evalVector m S).getD c false = true ↔ ∀ i ∈ S, c.testBit (m - 1 - i) = false))

/-- The generator matrix of the built tables: `k` rows of `n` elements, row `j` the evaluation vector of monomial `j`
(40_builder.md R107). -/
def Obligations.GeneratorMatrixRowsEvaluateTheMonomials : Prop :=
  ∀ r m : Nat, r < m → (buildTables r m).gen.length = messageLength r m ∧
    ∀ j < messageLength r m, ((buildTables r m).gen.getD j []).length = 2 ^ m ∧
      (buildTables r m).gen.getD j [] = evalVector m ((buildTables r m).mono.getD j []) ∧
      ∀ c < 2 ^ m, (((buildTables r m).gen.getD j []).getD c false = true ↔
        ∀ i ∈ (buildTables r m).mono.getD j [], c.testBit (m - 1 - i) = false)

/-- The stored degree boundaries delimit the rows of each degree; the ranges follow each other and none is empty
(40_builder.md, degree-boundary table). -/
def Obligations.DegreeBoundariesDelimitTheDegrees : Prop :=
  ∀ r m : Nat, r < m → (buildTables r m).lower.getD 0 0 = 0 ∧
    (buildTables r m).upper.getD r 0 + 1 = (buildTables r m).mono.length ∧
    (∀ d < r, (buildTables r m).lower.getD (d + 1) 0 = (buildTables r m).upper.getD d 0 + 1) ∧
    (∀ d ≤ r, (buildTables r m).upper.getD d 0 + 1 = (buildTables r m).lower.getD d 0 + m.choose d ∧ 1 ≤ m.choose d ∧
      ∀ j < (buildTables r m).mono.length, ((buildTables r m).mono.getD j []).length = d ↔
        (buildTables r m).lower.getD d 0 ≤ j ∧ j ≤ (buildTables r m).upper.getD d 0)

/-- The voting-row family of a row of degree `d`: one vector for each assignment of the variables outside the monomial, which
holds the points that agree with it there, `2^d` points, whatever the monomial's own variables are; `2^(m-d)` vectors, pairwise
disjoint, covering the cube, their number even and at least 2. The stored table holds these families, row by row
(40_builder.md, voting-row families). -/
def Obligations.VotingFamilyPartitionsTheCube : Prop :=
  (∀ (r m : Nat) (S : List Nat), r < m → S ∈ monomials r m →
    (∀ v ∈ votingFamily m S, v.length = 2 ^ m ∧ popcount v = 2 ^ S.length ∧
      ∃ a : Nat → Bool, ∀ c < 2 ^ m, v.getD c false = true ↔ ∀ i < m, i ∉ S → (variableVector m i).getD c false = a i) ∧
    (∀ a : Nat → Bool, ∃ v ∈ votingFamily m S,
      ∀ c < 2 ^ m, v.getD c false = true ↔ ∀ i < m, i ∉ S → (variableVector m i).getD c false = a i) ∧
    (votingFamily m S).Pairwise (fun u v => vand u v = zeros (2 ^ m)) ∧
    (votingFamily m S).foldr vxor (zeros (2 ^ m)) = ones (2 ^ m) ∧
    (∀ c < 2 ^ m, ((votingFamily m S).filter (fun v => v.getD c false)).length = 1) ∧
    (votingFamily m S).length = 2 ^ (m - S.length) ∧ 2 ∣ (votingFamily m S).length ∧ 2 ≤ (votingFamily m S).length) ∧
  (∀ r m : Nat, r < m → (buildTables r m).vote.length = messageLength r m ∧
    ∀ j < messageLength r m, (buildTables r m).vote.getD j [] = votingFamily m ((buildTables r m).mono.getD j [])) ∧
  (∀ m c : Nat, c < 2 ^ m → (List.range (2 ^ m)).map (fun x => x == c) ∈ votingFamily m []) ∧
  votingFamily 3 [0] =
    [[true, false, false, false, true, false, false, false], [false, true, false, false, false, true, false, false],
      [false, false, true, false, false, false, true, false], [false, false, false, true, false, false, false, true]]

/-! ## The encoder -/

/-- Element `c` of the codeword is the parity of the message elements whose monomial is 1 at point `c` (41_encode.md R140). -/
def Obligations.CodewordElementIsTheDotProductWithItsColumn : Prop :=
  ∀ (r m : Nat) (msg : Bits), r < m → msg.length = messageLength r m →
    (encodeCore (buildTables r m) (2 ^ m) msg).length = 2 ^ m ∧
    ∀ c < 2 ^ m, (encodeCore (buildTables r m) (2 ^ m) msg).getD c false =
      (((List.range (messageLength r m)).filter (fun j =>
        msg.getD j false && ((monomials r m).getD j []).all (fun i => !c.testBit (m - 1 - i)))).length % 2 == 1)

/-- EncodeCore is the xor of the rows the message selects, is linear, and for `r = 0` repeats the one message bit
(41_encode.md, equivalent forms, items 1, 2 and 4). -/
def Obligations.EncodeCoreIsTheXorOfTheSelectedRows : Prop :=
  ∀ (r m : Nat) (a b : Bits), r < m → a.length = messageLength r m → b.length = messageLength r m →
    encodeCore (buildTables r m) (2 ^ m) a =
      ((a.zip (buildTables r m).gen).filterMap (fun p => if p.1 then some p.2 else none)).foldr vxor (zeros (2 ^ m)) ∧
    encodeCore (buildTables r m) (2 ^ m) (vxor a b) =
      vxor (encodeCore (buildTables r m) (2 ^ m) a) (encodeCore (buildTables r m) (2 ^ m) b) ∧
    encodeCore (buildTables 0 m) (2 ^ m) [true] = ones (2 ^ m) ∧ encodeCore (buildTables 0 m) (2 ^ m) [false] = zeros (2 ^ m)

/-! ## The decoder -/

/-- One row's vote is none exactly on a tie, and else the value with strictly more votes (42_decode.md R153). -/
def Obligations.VoteIsTheStrictMajority : Prop :=
  ∀ (family : List Bits) (e : Bits),
    (voteOn family e = none ↔ family.countP (fun v => dot2 e v) = family.countP (fun v => !dot2 e v)) ∧
    (voteOn family e = some true ↔ family.countP (fun v => !dot2 e v) < family.countP (fun v => dot2 e v)) ∧
    (voteOn family e = some false ↔ family.countP (fun v => dot2 e v) < family.countP (fun v => !dot2 e v))

/-- The rows of one degree may be decided in any order: a tie is found in every order or in none, and each row's coefficient
is the same (42_decode.md, order within a degree). -/
def Obligations.OrderOfTheRowsOfADegreeDoesNotMatter : Prop :=
  ∀ (t : Tables) (e : Bits) (rows rows' : List Nat), rows.Perm rows' →
    (decideRows t e rows = none ↔ decideRows t e rows' = none) ∧
    ∀ w w', decideRows t e rows = some w → decideRows t e rows' = some w' → (rows.zip w).Perm (rows'.zip w')

/-- Decoding an error-free codeword gives the message back (42_decode.md R158). -/
def Obligations.DecodeOfEncodedMessageIsTheMessage : Prop :=
  ∀ (r m : Nat) (msg : Bits), r < m → msg.length = messageLength r m →
    decodeCore (buildTables r m) r (2 ^ m) (encodeCore (buildTables r m) (2 ^ m) msg) = .decoded msg

/-- Up to `t` errors are corrected (42_decode.md R159). -/
def Obligations.UpToStrengthErrorsAreCorrected : Prop :=
  ∀ (r m : Nat) (msg err : Bits), r < m → msg.length = messageLength r m → err.length = 2 ^ m →
    popcount err ≤ strength r m →
    decodeCore (buildTables r m) r (2 ^ m) (vxor (encodeCore (buildTables r m) (2 ^ m) msg) err) = .decoded msg

/-- With `t + 1` errors, some message is not given back: for every accepted pair there are one message and one error
(42_decode.md, beyond the radius). -/
def Obligations.SomeErrorBeyondTheStrengthIsNotCorrected : Prop :=
  ∀ r m : Nat, r < m → ∃ msg err : Bits, msg.length = messageLength r m ∧ err.length = 2 ^ m ∧
    popcount err = strength r m + 1 ∧
    decodeCore (buildTables r m) r (2 ^ m) (vxor (encodeCore (buildTables r m) (2 ^ m) msg) err) ≠ .decoded msg

/-- Adding a codeword to a received vector adds its message to the result and keeps ambiguity (42_decode.md, derived
consequences). -/
def Obligations.DecodeIsEquivariant : Prop :=
  ∀ (r m : Nat) (msg e : Bits), r < m → msg.length = messageLength r m → e.length = 2 ^ m →
    (decodeCore (buildTables r m) r (2 ^ m) (vxor e (encodeCore (buildTables r m) (2 ^ m) msg)) = .ambiguous ↔
      decodeCore (buildTables r m) r (2 ^ m) e = .ambiguous) ∧
    ∀ w, decodeCore (buildTables r m) r (2 ^ m) e = .decoded w →
      decodeCore (buildTables r m) r (2 ^ m) (vxor e (encodeCore (buildTables r m) (2 ^ m) msg)) = .decoded (vxor w msg)

/-- With `t = 0` a single bit error is always ambiguous (42_decode.md, DECODE, corner cases). -/
def Obligations.SingleErrorIsAmbiguousAtStrengthZero : Prop :=
  ∀ (r : Nat) (msg err : Bits), msg.length = messageLength r (r + 1) → err.length = 2 ^ (r + 1) → popcount err = 1 →
    decodeCore (buildTables r (r + 1)) r (2 ^ (r + 1)) (vxor (encodeCore (buildTables r (r + 1)) (2 ^ (r + 1)) msg) err) =
      .ambiguous

/-- With `r = 0` DECODE is a majority vote over the received bits, and an exact half is ambiguous (42_decode.md, DECODE, corner
cases; 95_test_vectors.md S2). -/
def Obligations.RepetitionCodeDecodesByMajority : Prop :=
  ∀ (m : Nat) (e : Bits), 1 ≤ m → e.length = 2 ^ m →
    decodeCore (buildTables 0 m) 0 (2 ^ m) e =
      if 2 * popcount e = 2 ^ m then .ambiguous else .decoded [decide (2 ^ m < 2 * popcount e)]

/-- The whole block: a message is encoded, the host carries the codeword to IN_DATA with at most `T` bits flipped, and DECODE
puts out the message (42_decode.md, guaranteed correction radius, through ENCODE and DECODE). -/
def Obligations.BlockCorrectsUpToStrengthErrors : Prop :=
  ∀ (s s1 s2 : State) (err : Bits), s.CfgLegal → s.TablesMatch → s.cfg.valid = true → s.inLen = s.kReg →
    exec .encode s = .next s1 → s2.cap = s1.cap → s2.cfg = s1.cfg → s2.tables = s1.tables → s2.inLen = s1.outLen →
    err.length = s1.outLen.toNat → popcount err ≤ s.tReg.toNat →
    s2.inData.readVec s2.cap s2.inLen.toNat = vxor (s1.outData.readVec s1.cap s1.outLen.toNat) err →
    ∃ s3, exec .decode s2 = .next s3 ∧ s3.status = ⟨.decoded, false⟩ ∧ s3.outLen = s.inLen ∧
      s3.outData.readVec s3.cap s3.outLen.toNat = s.inData.readVec s.cap s.inLen.toNat
end

