-- ==== Sys2Proof/Laws/Buffer.lean ====
section
/-! SUPPORT. The data buffers: reading after writing, byte by byte, and that every operation keeps the canonical form. -/

namespace Sys2Proof.Machine

theorem byteMask_idem (c : Capacity) (off : Nat) (v : Byte) : v &&& byteMask c off &&& byteMask c off = v &&& byteMask c off := by
  rw [BitVec.and_assoc, BitVec.and_self]

/-- Which bits of a byte exist (10_state.md R32). -/
theorem getLsbD_byteMask (c : Capacity) (off i : Nat) :
    (byteMask c off).getLsbD i = (decide (i < 8) && decide (8 * off + i < c.nMax)) := by
  simp only [byteMask, BitVec.getLsbD_ofNat, Nat.testBit_two_pow_sub_one]
  by_cases h : i < 8 <;> simp [h]
  omega

theorem unlistedByte_masked (c : Capacity) (f : Fill) (off : Nat) :
    unlistedByte c f off &&& byteMask c off = unlistedByte c f off := by
  cases f with
  | zero => simp [unlistedByte]
  | drawn k => exact byteMask_idem c off _

theorem cellAt_insertCell_same (off : Nat) (v : Byte) (cells : List Host.Cell) :
    cellAt off (insertCell off v cells) = some v := by
  induction cells with
  | nil => simp [insertCell, cellAt]
  | cons p rest ih =>
    simp only [insertCell]
    split
    · simp [cellAt]
    · split
      · simp [cellAt]
      · rename_i h; simp [cellAt, Ne.symm h, ih]

theorem cellAt_insertCell_other {off off' : Nat} (h : off' ≠ off) (v : Byte) (cells : List Host.Cell) :
    cellAt off' (insertCell off v cells) = cellAt off' cells := by
  induction cells with
  | nil => simp [insertCell, cellAt, Ne.symm h]
  | cons p rest ih =>
    simp only [insertCell]
    split
    · simp [cellAt, Ne.symm h]
    · split
      · rename_i e; simp [cellAt, ← e, Ne.symm h]
      · simp [cellAt, ih]

theorem cellAt_eraseCell_same (off : Nat) (cells : List Host.Cell) : cellAt off (eraseCell off cells) = none := by
  induction cells with
  | nil => rfl
  | cons p rest ih =>
    by_cases h : p.1 = off
    · simpa [eraseCell, h] using ih
    · have : cellAt off (p :: eraseCell off rest) = none := by simp [cellAt, h, ih]
      simpa [eraseCell, h] using this

theorem cellAt_eraseCell_other {off off' : Nat} (h : off' ≠ off) (cells : List Host.Cell) :
    cellAt off' (eraseCell off cells) = cellAt off' cells := by
  induction cells with
  | nil => rfl
  | cons p rest ih =>
    by_cases e : p.1 = off
    · have : cellAt off' (eraseCell off rest) = cellAt off' (p :: rest) := by
        rw [ih]; simp [cellAt, e, Ne.symm h]
      simpa [eraseCell, e] using this
    · have : cellAt off' (p :: eraseCell off rest) = cellAt off' (p :: rest) := by simp [cellAt, ih]
      simpa [eraseCell, e] using this

/-- A byte reads back as written, as far as its bits exist. -/
theorem byteAt_setByte_same (c : Capacity) (b : Buffer) (off : Nat) (v : Byte) :
    (b.setByte c off v).byteAt c off = v &&& byteMask c off := by
  unfold Buffer.setByte
  split
  · rename_i h; simp [Buffer.byteAt, cellAt_eraseCell_same, h]
  · simp [Buffer.byteAt, cellAt_insertCell_same, byteMask_idem]

/-- A byte write leaves every other byte alone. -/
theorem byteAt_setByte_other (c : Capacity) (b : Buffer) {off off' : Nat} (h : off' ≠ off) (v : Byte) :
    (b.setByte c off v).byteAt c off' = b.byteAt c off' := by
  unfold Buffer.setByte
  split <;> simp [Buffer.byteAt, cellAt_eraseCell_other h, cellAt_insertCell_other h]

@[simp] theorem fill_setByte (c : Capacity) (b : Buffer) (off : Nat) (v : Byte) : (b.setByte c off v).fill = b.fill := by
  unfold Buffer.setByte; split <;> rfl

/-- No byte has a bit at index `N_MAX` or above (10_state.md R32). -/
theorem byteAt_masked (c : Capacity) (b : Buffer) (off : Nat) : b.byteAt c off &&& byteMask c off = b.byteAt c off := by
  unfold Buffer.byteAt
  split
  · exact byteMask_idem ..
  · exact unlistedByte_masked ..

theorem mem_insertCell {off : Nat} {v : Byte} {q : Host.Cell} {cells : List Host.Cell}
    (h : q ∈ insertCell off v cells) : q = (off, v) ∨ q ∈ cells := by
  induction cells with
  | nil => simpa [insertCell] using h
  | cons p rest ih =>
    simp only [insertCell] at h
    split at h
    · simpa using h
    · split at h
      · rcases List.mem_cons.mp h with h | h
        · exact .inl h
        · exact .inr (List.mem_cons_of_mem _ h)
      · rcases List.mem_cons.mp h with h | h
        · exact .inr (h ▸ List.mem_cons_self)
        · exact (ih h).imp_right (List.mem_cons_of_mem _)

theorem rising_insertCell {off : Nat} {v : Byte} {cells : List Host.Cell}
    (h : cells.Pairwise (fun p q => p.1 < q.1)) : (insertCell off v cells).Pairwise (fun p q => p.1 < q.1) := by
  induction cells with
  | nil => simp [insertCell]
  | cons p rest ih =>
    obtain ⟨hp, hr⟩ := List.pairwise_cons.mp h
    simp only [insertCell]
    split
    · rename_i lt
      refine List.pairwise_cons.mpr ⟨fun q hq => ?_, h⟩
      rcases List.mem_cons.mp hq with rfl | hq
      · exact lt
      · exact lt.trans (hp q hq)
    · split
      · rename_i e; exact List.pairwise_cons.mpr ⟨fun q hq => e ▸ hp q hq, hr⟩
      · refine List.pairwise_cons.mpr ⟨fun q hq => ?_, ih hr⟩
        rcases mem_insertCell hq with rfl | hq
        · simp only; omega
        · exact hp q hq

theorem Buffer.wf_iff (c : Capacity) (b : Buffer) :
    b.wf c = true ↔ b.cells.Pairwise (fun p q => p.1 < q.1) ∧ ∀ p ∈ b.cells, cellOk c b.fill p = true := by
  simp [Buffer.wf]

/-- An empty list is in canonical form. -/
theorem wf_nil (c : Capacity) (f : Fill) : Buffer.wf c ⟨f, []⟩ = true := rfl

/-- A byte write keeps the canonical form. -/
theorem wf_setByte {c : Capacity} {b : Buffer} (h : b.wf c = true) (off : Nat) (v : Byte) : (b.setByte c off v).wf c = true := by
  rw [Buffer.wf_iff] at h ⊢
  obtain ⟨hs, ho⟩ := h
  unfold Buffer.setByte
  split
  · exact ⟨hs.filter _, fun p hp => ho p (List.mem_of_mem_filter hp)⟩
  · rename_i hne
    refine ⟨rising_insertCell hs, fun p hp => ?_⟩
    rcases mem_insertCell hp with rfl | hp
    · simpa [cellOk, byteMask_idem] using hne
    · exact ho p hp

/-- A word write keeps the canonical form. -/
theorem wf_setWord {c : Capacity} {b : Buffer} (h : b.wf c = true) (w : Nat) (v : Word) : (b.setWord c w v).wf c = true :=
  wf_setByte (wf_setByte (wf_setByte (wf_setByte h _ _) _ _) _ _) _ _

@[simp] theorem fill_setWord (c : Capacity) (b : Buffer) (w : Nat) (v : Word) : (b.setWord c w v).fill = b.fill := by
  simp [Buffer.setWord]

theorem packCell_eq_some {c : Capacity} {v : Bits} {off : Nat} {p : Host.Cell} (h : packCell c v off = some p) :
    p = (off, packByte v off &&& byteMask c off) ∧ packByte v off &&& byteMask c off ≠ 0#8 := by
  unfold packCell at h
  split at h
  · cases h
  · rename_i hne; exact ⟨(Option.some.inj h).symm, hne⟩

theorem rising_packCells (c : Capacity) (v : Bits) {offs : List Nat} (h : offs.Pairwise (· < ·)) :
    (offs.filterMap (packCell c v)).Pairwise (fun p q => p.1 < q.1) := by
  rw [List.pairwise_filterMap]
  refine h.imp fun {a b} lt p hp q hq => ?_
  rw [(packCell_eq_some hp).1, (packCell_eq_some hq).1]
  exact lt

/-- Writing a vector gives a buffer in canonical form. -/
theorem wf_writeVec (c : Capacity) (v : Bits) : (Buffer.writeVec c v).wf c = true := by
  rw [Buffer.wf_iff]
  refine ⟨rising_packCells c v List.pairwise_lt_range, fun p hp => ?_⟩
  obtain ⟨off, -, h⟩ := List.mem_filterMap.mp hp
  obtain ⟨rfl, hne⟩ := packCell_eq_some h
  simpa [cellOk, byteMask_idem, Buffer.writeVec, unlistedByte] using hne

theorem cellAt_packCells (c : Capacity) (v : Bits) (off : Nat) (offs : List Nat) :
    cellAt off (offs.filterMap (packCell c v)) = if off ∈ offs then (packCell c v off).map Prod.snd else none := by
  induction offs with
  | nil => rfl
  | cons o rest ih =>
    cases h : packCell c v o with
    | none =>
      rw [List.filterMap_cons_none h, ih]
      by_cases e : off = o
      · subst e; simp [h]
      · simp [e]
    | some p =>
      rw [List.filterMap_cons_some h]
      obtain ⟨rfl, -⟩ := packCell_eq_some h
      by_cases e : off = o
      · subst e; simp [cellAt, h]
      · simp [cellAt, e, Ne.symm e, ih]

theorem packByte_past_end {v : Bits} {off : Nat} (h : v.length ≤ 8 * off) : packByte v off = 0#8 := by
  have g : ∀ i, v.getD (8 * off + i) false = false := fun i => by
    rw [List.getD_eq_getElem?_getD, List.getElem?_eq_none (by omega)]; rfl
  have g0 : v.getD (8 * off) false = false := g 0
  simp only [packByte, g, g0]; rfl

/-- A written vector reads back byte by byte, every byte past its end 0. -/
theorem byteAt_writeVec (c : Capacity) (v : Bits) (off : Nat) :
    (Buffer.writeVec c v).byteAt c off = packByte v off &&& byteMask c off := by
  simp only [Buffer.byteAt, Buffer.writeVec, cellAt_packCells, List.mem_range]
  by_cases h : off < (v.length + 7) / 8
  · rw [if_pos h]
    cases hc : packCell c v off with
    | none =>
      unfold packCell at hc
      split at hc
      · rename_i z; simp [unlistedByte, z]
      · cases hc
    | some p => obtain ⟨rfl, -⟩ := packCell_eq_some hc; simp [byteMask_idem]
  · rw [if_neg h]; simp [unlistedByte, packByte_past_end (v := v) (off := off) (by omega)]

theorem getLsbD_eight (b7 b6 b5 b4 b3 b2 b1 b0 : Bool) :
    ((List.range 8).map (BitVec.ofBool b7 ++ BitVec.ofBool b6 ++ BitVec.ofBool b5 ++ BitVec.ofBool b4 ++ BitVec.ofBool b3 ++
      BitVec.ofBool b2 ++ BitVec.ofBool b1 ++ BitVec.ofBool b0).getLsbD) = [b0, b1, b2, b3, b4, b5, b6, b7] := by
  revert b7 b6 b5 b4 b3 b2 b1 b0; decide

/-- Bit `i` of a packed byte is element `8*off + i` (20_memory.md R54). -/
theorem getLsbD_packByte (v : Bits) (off i : Nat) (h : i < 8) : (packByte v off).getLsbD i = v.getD (8 * off + i) false := by
  have e := getLsbD_eight (v.getD (8 * off + 7) false) (v.getD (8 * off + 6) false) (v.getD (8 * off + 5) false)
    (v.getD (8 * off + 4) false) (v.getD (8 * off + 3) false) (v.getD (8 * off + 2) false) (v.getD (8 * off + 1) false)
    (v.getD (8 * off) false)
  change (List.range 8).map (packByte v off).getLsbD = _ at e
  have e' := congrArg (fun l => l[i]?) e
  have : i = 0 ∨ i = 1 ∨ i = 2 ∨ i = 3 ∨ i = 4 ∨ i = 5 ∨ i = 6 ∨ i = 7 := by omega
  rcases this with rfl | rfl | rfl | rfl | rfl | rfl | rfl | rfl <;> exact Option.some.inj e'

/-- Bit `i` of a word is a bit of one of its four bytes. -/
theorem getLsbD_wordAt (c : Capacity) (b : Buffer) (w i : Nat) (h : i < 32) :
    (b.wordAt c w).getLsbD i = (b.byteAt c (4 * w + i / 8)).getLsbD (i % 8) := by
  simp only [Buffer.wordAt, BitVec.getLsbD_append]
  by_cases h1 : i < 8
  · have : i / 8 = 0 ∧ i % 8 = i := by omega
    simp [h1, this]
  · by_cases h2 : i - 8 < 8
    · have : i / 8 = 1 ∧ i % 8 = i - 8 := by omega
      simp [h1, h2, this]
    · by_cases h3 : i - 8 - 8 < 8
      · have : i / 8 = 2 ∧ i % 8 = i - 8 - 8 := by omega
        simp [h1, h2, h3, this]
      · have : i / 8 = 3 ∧ i % 8 = i - 8 - 8 - 8 := by omega
        simp [h1, h2, h3, this]

/-- `BufBit` by bytes. -/
theorem bit_eq_byteAt (c : Capacity) (b : Buffer) (i : Nat) : b.bit c i = (b.byteAt c (i / 8)).getLsbD (i % 8) := by
  unfold Buffer.bit
  have h1 : 4 * (i / 32) + i % 32 / 8 = i / 8 := by omega
  have h2 : i % 32 % 8 = i % 8 := by omega
  rw [getLsbD_wordAt c b (i / 32) (i % 32) (by omega), h1, h2]

@[simp] theorem length_readVec (c : Capacity) (b : Buffer) (len : Nat) : (b.readVec c len).length = len := by
  simp [Buffer.readVec]

/-- A cell of a list with rising offsets is the one its offset finds. -/
theorem cellAt_of_mem {cells : List Host.Cell} (h : cells.Pairwise (fun p q => p.1 < q.1)) {p : Host.Cell} (hp : p ∈ cells) :
    cellAt p.1 cells = some p.2 := by
  induction cells with
  | nil => cases hp
  | cons q rest ih =>
    obtain ⟨hq, hr⟩ := List.pairwise_cons.mp h
    rcases List.mem_cons.mp hp with rfl | hp
    · simp [cellAt]
    · simp [cellAt, Nat.ne_of_lt (hq p hp), ih hr hp]

theorem mem_of_cellAt {cells : List Host.Cell} {off : Nat} {v : Byte} (h : cellAt off cells = some v) : (off, v) ∈ cells := by
  induction cells with
  | nil => cases h
  | cons q rest ih =>
    simp only [cellAt] at h
    split at h
    · rename_i e; subst e; cases h; exact List.mem_cons_self
    · exact List.mem_cons_of_mem _ (ih h)

/-- In canonical form a cell is listed exactly where the byte differs from an unlisted one, with that byte. -/
theorem mem_cells_iff {c : Capacity} {b : Buffer} (h : b.wf c = true) (off : Nat) (v : Byte) :
    (off, v) ∈ b.cells ↔ b.byteAt c off = v ∧ v ≠ unlistedByte c b.fill off := by
  obtain ⟨hs, ho⟩ := (Buffer.wf_iff c b).mp h
  constructor
  · intro hm
    have hc := cellAt_of_mem hs hm
    have := ho _ hm
    simp only [cellOk, Bool.and_eq_true, beq_iff_eq, bne_iff_ne] at this
    simp only at hc
    exact ⟨by simp [Buffer.byteAt, hc, this.1], this.2⟩
  · rintro ⟨rfl, hne⟩
    unfold Buffer.byteAt at hne ⊢
    split at hne
    · rename_i v hv
      have hm := mem_of_cellAt hv
      have := ho _ hm
      simp only [cellOk, Bool.and_eq_true, beq_iff_eq] at this
      simpa [hv, this.1] using hm
    · exact absurd rfl hne

/-- Two buffers in canonical form with the same fill and the same bytes are equal data. -/
theorem buffer_ext {c : Capacity} {a b : Buffer} (ha : a.wf c = true) (hb : b.wf c = true) (hf : a.fill = b.fill)
    (h : ∀ off, a.byteAt c off = b.byteAt c off) : a = b := by
  have sa := ((Buffer.wf_iff c a).mp ha).1
  have sb := ((Buffer.wf_iff c b).mp hb).1
  have mem : ∀ p, p ∈ a.cells ↔ p ∈ b.cells := fun p => by
    rw [show p = (p.1, p.2) from rfl, mem_cells_iff ha, mem_cells_iff hb, h, hf]
  have perm : a.cells.Perm b.cells :=
    (List.perm_ext_iff_of_nodup (sa.imp (fun lt e => absurd (congrArg Prod.fst e) (Nat.ne_of_lt lt)))
      (sb.imp (fun lt e => absurd (congrArg Prod.fst e) (Nat.ne_of_lt lt)))).mpr mem
  have : a.cells = b.cells := perm.eq_of_pairwise (fun p q _ _ l1 l2 => absurd l1 (by omega)) sa sb
  cases a; cases b; simp_all

end Sys2Proof.Machine
end

