-- ==== Sys2Proof/Laws/Code.lean ====
section
/-! SUPPORT. Sizes and elements of the vectors and tables of 40_builder.md, 41_encode.md and 42_decode.md. -/

namespace Sys2Proof.Machine

@[simp] theorem length_vxor (u v : Bits) : (vxor u v).length = min u.length v.length := by simp [vxor]
@[simp] theorem length_vand (u v : Bits) : (vand u v).length = min u.length v.length := by simp [vand]
@[simp] theorem length_vnot (u : Bits) : (vnot u).length = u.length := by simp [vnot]
@[simp] theorem length_zeros (len : Nat) : (zeros len).length = len := by simp [zeros]
@[simp] theorem length_ones (len : Nat) : (ones len).length = len := by simp [ones]
@[simp] theorem length_variableVector (m i : Nat) : (variableVector m i).length = blockLength m := by simp [variableVector]
@[simp] theorem length_evalVector (m : Nat) (S : List Nat) : (evalVector m S).length = blockLength m := by simp [evalVector]
@[simp] theorem length_votingVector (m : Nat) (comp : List Nat) (a : Bits) :
    (votingVector m comp a).length = blockLength m := by simp [votingVector]
@[simp] theorem length_encodeCore (t : Tables) (n : Nat) (msg : Bits) : (encodeCore t n msg).length = n := by simp [encodeCore]
@[simp] theorem length_columnOf (t : Tables) (c : Nat) : (columnOf t c).length = t.gen.length := by simp [columnOf]

/-- Dot products with the empty vector are 0. -/
@[simp] theorem dot2_nil_left (v : Bits) : dot2 [] v = false := rfl
@[simp] theorem dot2_nil_right (v : Bits) : dot2 v [] = false := by cases v <;> rfl

/-- A dot product element by element. -/
theorem dot2_cons (a b : Bool) (u v : Bits) : dot2 (a :: u) (b :: v) = Bool.xor (a && b) (dot2 u v) := by
  cases h : a && b <;> simp only [dot2, popcount, vand, List.zipWith_cons_cons, List.count_cons, h]
  · simp
  · rcases Nat.mod_two_eq_zero_or_one (List.count true (List.zipWith (fun a b => a && b) u v)) with e | e <;> simp [Nat.add_mod, e]

/-- The dot product is linear in its first argument. -/
theorem dot2_vxor_left (u v w : Bits) (h : u.length = v.length) : dot2 (vxor u v) w = Bool.xor (dot2 u w) (dot2 v w) := by
  induction u generalizing v w with
  | nil => cases v with
    | nil => simp [vxor]
    | cons b v => simp at h
  | cons a u ih => cases v with
    | nil => simp at h
    | cons b v => cases w with
      | nil => simp
      | cons x w =>
        have := ih v w (by simpa using h)
        rw [show vxor (a :: u) (b :: v) = Bool.xor a b :: vxor u v from rfl, dot2_cons, dot2_cons, dot2_cons, this]
        cases a <;> cases b <;> cases x <;> cases dot2 u w <;> cases dot2 v w <;> rfl

theorem dot2_comm (u v : Bits) : dot2 u v = dot2 v u := by
  simp only [dot2, vand]
  rw [List.zipWith_comm]
  simp [Bool.and_comm]

/-- There are `2^len` assignments of `len` variables. -/
@[simp] theorem length_assignments (len : Nat) : (assignments len).length = 2 ^ len := by
  induction len with
  | zero => rfl
  | succ len ih => simp [assignments, ih, Nat.pow_succ]; omega

/-- The assignments are the bit lists of the right length. -/
theorem mem_assignments {len : Nat} {a : Bits} : a ∈ assignments len ↔ a.length = len := by
  induction len generalizing a with
  | zero => simp [assignments]
  | succ len ih =>
    cases a with
    | nil => simp [assignments]
    | cons b a => cases b <;> simp [assignments, ih]

/-- A voting family has one vector per assignment of the complementary variables (40_builder.md R111). -/
@[simp] theorem length_votingFamily (m : Nat) (S : List Nat) :
    (votingFamily m S).length = 2 ^ (complementOf m S).length := by simp [votingFamily]

/-- There are `C(length, d)` combinations of `d` elements. -/
theorem length_combinations (d : Nat) (l : List Nat) : (combinations d l).length = l.length.choose d := by
  induction l generalizing d with
  | nil => cases d <;> simp [combinations]
  | cons x xs ih => cases d <;> simp [combinations, ih, Nat.choose_succ_succ]

/-- The factorial formula is the binomial coefficient. -/
theorem binomial_eq_choose {m i : Nat} (h : i ≤ m) : binomial m i = m.choose i := (Nat.choose_eq_factorial_div_factorial h).symm

/-- The number of elements of degree `d`. -/
theorem length_subsets {m d : Nat} (h : d ≤ m) : (subsets m d).length = binomial m d := by
  simp [subsets, length_combinations, binomial_eq_choose h]

/-- The enumeration has exactly `k` elements (R103). -/
theorem length_monomials {r m : Nat} (h : r ≤ m) : (monomials r m).length = messageLength r m := by
  simp only [monomials, List.length_flatMap, messageLength, binomialSum]
  congr 1
  refine List.map_congr_left fun d hd => ?_
  exact length_subsets (by have := List.mem_range.mp hd; omega)

theorem length_decideRows {t : Tables} {e w : Bits} {rows : List Nat} (h : decideRows t e rows = some w) :
    w.length = rows.length := by
  induction rows generalizing w with
  | nil => cases h; rfl
  | cons pos rest ih =>
    simp only [decideRows] at h
    split at h
    · cases h
    · split at h
      · cases h
      · rename_i w' hw
        cases h; simp [ih hw]

end Sys2Proof.Machine
end

