-- ==== Sys2Proof/Laws/State.lean ====
section
/-! SUPPORT. What each update of the state leaves in each field, so that no later proof unfolds a record update. -/

namespace Sys2Proof.Machine

section
variable (code : Result) (s : State)

@[simp] theorem finish_cap : (finish code s).cap = s.cap := rfl
@[simp] theorem finish_cfg : (finish code s).cfg = s.cfg := rfl
@[simp] theorem finish_tables : (finish code s).tables = s.tables := rfl
@[simp] theorem finish_status : (finish code s).status = ⟨code, false⟩ := rfl
@[simp] theorem finish_latch : (finish code s).latch = s.latch := rfl
@[simp] theorem finish_inLen : (finish code s).inLen = s.inLen := rfl
@[simp] theorem finish_inData : (finish code s).inData = s.inData := rfl
@[simp] theorem finish_outLen : (finish code s).outLen = s.outLen := rfl
@[simp] theorem finish_outData : (finish code s).outData = s.outData := rfl
@[simp] theorem finish_rdata : (finish code s).rdata = s.rdata := rfl
@[simp] theorem finish_draws : (finish code s).draws = s.draws := rfl
@[simp] theorem finish_inputs : (finish code s).inputs = s.inputs := rfl

end

section
variable (len : Nat) (v : Bits) (s : State)

@[simp] theorem putOut_cap : (putOut len v s).cap = s.cap := rfl
@[simp] theorem putOut_cfg : (putOut len v s).cfg = s.cfg := rfl
@[simp] theorem putOut_tables : (putOut len v s).tables = s.tables := rfl
@[simp] theorem putOut_status : (putOut len v s).status = s.status := rfl
@[simp] theorem putOut_latch : (putOut len v s).latch = s.latch := rfl
@[simp] theorem putOut_inLen : (putOut len v s).inLen = s.inLen := rfl
@[simp] theorem putOut_inData : (putOut len v s).inData = s.inData := rfl
@[simp] theorem putOut_outLen : (putOut len v s).outLen = BitVec.ofNat 32 len := rfl
@[simp] theorem putOut_outData : (putOut len v s).outData = Buffer.writeVec s.cap v := rfl
@[simp] theorem putOut_rdata : (putOut len v s).rdata = s.rdata := rfl
@[simp] theorem putOut_draws : (putOut len v s).draws = s.draws := rfl
@[simp] theorem putOut_inputs : (putOut len v s).inputs = s.inputs := rfl

end

section
variable (code : Result) (s : State)

@[simp] theorem failClearing_cap : (failClearing code s).cap = s.cap := rfl
@[simp] theorem failClearing_cfg : (failClearing code s).cfg = s.cfg := rfl
@[simp] theorem failClearing_tables : (failClearing code s).tables = s.tables := rfl
@[simp] theorem failClearing_status : (failClearing code s).status = ⟨code, false⟩ := rfl
@[simp] theorem failClearing_latch : (failClearing code s).latch = s.latch := rfl
@[simp] theorem failClearing_inLen : (failClearing code s).inLen = s.inLen := rfl
@[simp] theorem failClearing_inData : (failClearing code s).inData = s.inData := rfl
@[simp] theorem failClearing_outLen : (failClearing code s).outLen = 0#32 := rfl
@[simp] theorem failClearing_outData : (failClearing code s).outData = ⟨.zero, []⟩ := rfl
@[simp] theorem failClearing_rdata : (failClearing code s).rdata = s.rdata := rfl
@[simp] theorem failClearing_draws : (failClearing code s).draws = s.draws := rfl
@[simp] theorem failClearing_inputs : (failClearing code s).inputs = s.inputs := rfl

end

section
variable (s : State)

@[simp] theorem rejectIllegal_cap : (rejectIllegal s).cap = s.cap := rfl
@[simp] theorem rejectIllegal_cfg : (rejectIllegal s).cfg = s.cfg := rfl
@[simp] theorem rejectIllegal_tables : (rejectIllegal s).tables = s.tables := rfl
@[simp] theorem rejectIllegal_status : (rejectIllegal s).status = ⟨.illegalCommand, false⟩ := rfl
@[simp] theorem rejectIllegal_latch : (rejectIllegal s).latch = s.latch := rfl
@[simp] theorem rejectIllegal_inLen : (rejectIllegal s).inLen = s.inLen := rfl
@[simp] theorem rejectIllegal_inData : (rejectIllegal s).inData = s.inData := rfl
@[simp] theorem rejectIllegal_outLen : (rejectIllegal s).outLen = s.outLen := rfl
@[simp] theorem rejectIllegal_outData : (rejectIllegal s).outData = s.outData := rfl
@[simp] theorem rejectIllegal_rdata : (rejectIllegal s).rdata = s.rdata := rfl
@[simp] theorem rejectIllegal_draws : (rejectIllegal s).draws = s.draws := rfl
@[simp] theorem rejectIllegal_inputs : (rejectIllegal s).inputs = s.inputs := rfl

end

section
variable (r m : Nat) (s : State)

@[simp] theorem install_cap : (install r m s).cap = s.cap := rfl
@[simp] theorem install_cfg : (install r m s).cfg = ⟨true, BitVec.ofNat 8 m, BitVec.ofNat 8 r⟩ := rfl
@[simp] theorem install_tables : (install r m s).tables = buildTables r m := rfl
@[simp] theorem install_status : (install r m s).status = s.status := rfl
@[simp] theorem install_latch : (install r m s).latch = s.latch := rfl
@[simp] theorem install_inLen : (install r m s).inLen = s.inLen := rfl
@[simp] theorem install_inData : (install r m s).inData = s.inData := rfl
@[simp] theorem install_outLen : (install r m s).outLen = s.outLen := rfl
@[simp] theorem install_outData : (install r m s).outData = s.outData := rfl
@[simp] theorem install_rdata : (install r m s).rdata = s.rdata := rfl
@[simp] theorem install_draws : (install r m s).draws = s.draws := rfl
@[simp] theorem install_inputs : (install r m s).inputs = s.inputs := rfl

end

section
variable (s : State)

@[simp] theorem resetBlock_cap : (resetBlock s).cap = s.cap := rfl
@[simp] theorem resetBlock_cfg : (resetBlock s).cfg = ⟨false, 0#8, 0#8⟩ := rfl
@[simp] theorem resetBlock_tables : (resetBlock s).tables = Tables.empty := rfl
@[simp] theorem resetBlock_status : (resetBlock s).status = ⟨.none, false⟩ := rfl
@[simp] theorem resetBlock_latch : (resetBlock s).latch = Config.freeWord s.draws := rfl
@[simp] theorem resetBlock_inLen : (resetBlock s).inLen = 0#32 := rfl
@[simp] theorem resetBlock_inData : (resetBlock s).inData = ⟨.drawn s.draws, []⟩ := rfl
@[simp] theorem resetBlock_outLen : (resetBlock s).outLen = 0#32 := rfl
@[simp] theorem resetBlock_outData : (resetBlock s).outData = ⟨.drawn (s.draws + 1), []⟩ := rfl
@[simp] theorem resetBlock_rdata : (resetBlock s).rdata = s.rdata := rfl
@[simp] theorem resetBlock_draws : (resetBlock s).draws = s.draws + 2 := rfl
@[simp] theorem resetBlock_inputs : (resetBlock s).inputs = s.inputs := rfl

end

section
variable (c : Capacity) (k : Nat)

@[simp] theorem afterReset_cap : (State.afterReset c k).cap = c := rfl
@[simp] theorem afterReset_cfg : (State.afterReset c k).cfg = ⟨false, 0#8, 0#8⟩ := rfl
@[simp] theorem afterReset_tables : (State.afterReset c k).tables = Tables.empty := rfl
@[simp] theorem afterReset_status : (State.afterReset c k).status = ⟨.none, false⟩ := rfl
@[simp] theorem afterReset_latch : (State.afterReset c k).latch = Config.freeWord k := rfl
@[simp] theorem afterReset_inLen : (State.afterReset c k).inLen = 0#32 := rfl
@[simp] theorem afterReset_inData : (State.afterReset c k).inData = ⟨.drawn k, []⟩ := rfl
@[simp] theorem afterReset_outLen : (State.afterReset c k).outLen = 0#32 := rfl
@[simp] theorem afterReset_outData : (State.afterReset c k).outData = ⟨.drawn (k + 1), []⟩ := rfl
@[simp] theorem afterReset_draws : (State.afterReset c k).draws = k + 2 := rfl
@[simp] theorem afterReset_inputs : (State.afterReset c k).inputs = [] := rfl

end

section
variable (loc : Location) (s : State)

@[simp] theorem hostRead_cap : (hostRead loc s).cap = s.cap := by unfold hostRead; split <;> rfl
@[simp] theorem hostRead_cfg : (hostRead loc s).cfg = s.cfg := by unfold hostRead; split <;> rfl
@[simp] theorem hostRead_tables : (hostRead loc s).tables = s.tables := by unfold hostRead; split <;> rfl
@[simp] theorem hostRead_status : (hostRead loc s).status = s.status := by unfold hostRead; split <;> rfl
@[simp] theorem hostRead_latch : (hostRead loc s).latch = s.latch := by unfold hostRead; split <;> rfl
@[simp] theorem hostRead_inLen : (hostRead loc s).inLen = s.inLen := by unfold hostRead; split <;> rfl
@[simp] theorem hostRead_inData : (hostRead loc s).inData = s.inData := by unfold hostRead; split <;> rfl
@[simp] theorem hostRead_outLen : (hostRead loc s).outLen = s.outLen := by unfold hostRead; split <;> rfl
@[simp] theorem hostRead_outData : (hostRead loc s).outData = s.outData := by unfold hostRead; split <;> rfl
@[simp] theorem hostRead_inputs : (hostRead loc s).inputs = s.inputs := by unfold hostRead; split <;> rfl

end

/-- What a host read returns. -/
theorem hostRead_rdata (loc : Location) (s : State) :
    (hostRead loc s).rdata = if s.status.busy then busyValue loc (Config.freeWord s.draws) else s.valueAt loc := by
  unfold hostRead; split <;> rfl

/-- A host read uses up a draw exactly while busy. -/
theorem hostRead_draws (loc : Location) (s : State) :
    (hostRead loc s).draws = if s.status.busy then s.draws + 1 else s.draws := by
  unfold hostRead; split <;> rfl

section
variable (loc : Location) (v : Word) (s : State)

@[simp] theorem hostWrite_cap : (hostWrite loc v s).cap = s.cap := by cases loc <;> rfl
@[simp] theorem hostWrite_cfg : (hostWrite loc v s).cfg = s.cfg := by cases loc <;> rfl
@[simp] theorem hostWrite_tables : (hostWrite loc v s).tables = s.tables := by cases loc <;> rfl
@[simp] theorem hostWrite_outLen : (hostWrite loc v s).outLen = s.outLen := by cases loc <;> rfl
@[simp] theorem hostWrite_outData : (hostWrite loc v s).outData = s.outData := by cases loc <;> rfl
@[simp] theorem hostWrite_rdata : (hostWrite loc v s).rdata = s.rdata := by cases loc <;> rfl
@[simp] theorem hostWrite_draws : (hostWrite loc v s).draws = s.draws := by cases loc <;> rfl
@[simp] theorem hostWrite_inputs : (hostWrite loc v s).inputs = s.inputs := by cases loc <;> rfl

end

/-- Everything a host write can do. -/
theorem hostWrite_cases (loc : Location) (v : Word) (s : State) :
    (loc = .cmd ∧ hostWrite loc v s = { s with latch := v, status := ⟨s.status.result, true⟩ }) ∨
    (loc = .inLen ∧ hostWrite loc v s = { s with inLen := v }) ∨
    (∃ w, loc = .inData w ∧ hostWrite loc v s = { s with inData := s.inData.setWord s.cap w v }) ∨
    hostWrite loc v s = s := by
  cases loc <;> simp [hostWrite]

end Sys2Proof.Machine
end

