-- ==== Sys2Proof/Laws/Ops.lean ====
section
/-! SUPPORT. One lemma for each shared operation of the host interface: which accesses are admitted, what an address names, and
what a written vector reads as. -/

namespace Sys2Proof.Machine

/-- An access is admitted exactly when it is 4 bytes wide and aligned (20_memory.md R56). -/
theorem admissible_iff (a : Word) (width : Nat) : admissible a width = true ↔ width = 4 ∧ a.toNat % 4 = 0 := by
  simp only [admissible, Bool.and_eq_true, beq_iff_eq, and_congr_right_iff]
  intro _
  rw [← BitVec.toNat_inj]; simp [BitVec.extractLsb'_toNat]

theorem nMax_le (c : Capacity) : c.nMax ≤ 2 ^ 31 := Nat.pow_le_pow_right (by omega) c.le

/-- Each window fits its region (20_memory.md R50). -/
theorem words_le (c : Capacity) : c.words ≤ 2 ^ 26 := by
  have := nMax_le c
  unfold Capacity.words; omega

/-- Only address 0 is CMD (20_memory.md R51). -/
theorem locate_eq_cmd {c : Capacity} {a : Word} : locate c a = .cmd ↔ a = 0x000#32 := by
  rw [← BitVec.toNat_inj]
  unfold locate controlRegister
  repeat' split
  all_goals first | (simp_all; done) | (simp; omega)

/-- Only address 4 is STATUS (20_memory.md R51). -/
theorem locate_eq_status {c : Capacity} {a : Word} : locate c a = .status ↔ a = 0x004#32 := by
  rw [← BitVec.toNat_inj]
  unfold locate controlRegister
  repeat' split
  all_goals first | (simp_all; done) | (simp; omega)

/-- Only address 0x18 is IN_LEN (20_memory.md R51). -/
theorem locate_eq_inLen {c : Capacity} {a : Word} : locate c a = .inLen ↔ a = 0x018#32 := by
  rw [← BitVec.toNat_inj]
  unfold locate controlRegister
  repeat' split
  all_goals first | (simp_all; done) | (simp; omega)

/-- Word `w` of IN_DATA (20_memory.md R52). -/
theorem locate_inData {c : Capacity} {a : Word} {w : Nat} (hw : w < c.words) (h : a.toNat = 0x40000000 + 4 * w) :
    locate c a = .inData w := by
  have := words_le c
  unfold locate
  rw [if_neg (by omega), if_pos (by omega), h]
  simp [hw]

/-- Word `w` of OUT_DATA (20_memory.md R53). -/
theorem locate_outData {c : Capacity} {a : Word} {w : Nat} (hw : w < c.words) (h : a.toNat = 0x80000000 + 4 * w) :
    locate c a = .outData w := by
  have := words_le c
  unfold locate
  rw [if_neg (by omega), if_neg (by omega), if_pos (by omega), h]
  simp [hw]

/-- Where an address names a word of IN_DATA. -/
theorem of_locate_eq_inData {c : Capacity} {a : Word} {w : Nat} (h : locate c a = .inData w) :
    w < c.words ∧ 0x40000000 ≤ a.toNat ∧ w = (a.toNat - 0x40000000) / 4 := by
  unfold locate controlRegister at h
  repeat' split at h
  all_goals simp_all

/-- A written vector reads back bit by bit as far as bits exist, every other bit 0 (20_memory.md R54). -/
theorem bit_writeVec (c : Capacity) (v : Bits) (i : Nat) :
    (Buffer.writeVec c v).bit c i = (v.getD i false && decide (i < c.nMax)) := by
  have e : 8 * (i / 8) + i % 8 = i := by omega
  have l : i % 8 < 8 := by omega
  rw [bit_eq_byteAt, byteAt_writeVec, BitVec.getLsbD_and, getLsbD_packByte _ _ _ l, getLsbD_byteMask, e]
  simp [l]

/-- A cleared buffer is 0. -/
theorem bit_cleared (c : Capacity) (i : Nat) : Buffer.bit c ⟨.zero, []⟩ i = false := by
  simpa [Buffer.writeVec] using bit_writeVec c [] i

end Sys2Proof.Machine
end

