-- ==== Sys2Proof/Laws/Step.lean ====
section
/-! SUPPORT. What a step can do: the next event by the head of the inputs, and the cases of a completion step, a host access
and a whole step. Later proofs cite these and unfold no meaning. -/

namespace Sys2Proof.Machine

theorem step_nil {s : State} (h : s.inputs = []) : step s = sequencerTurn s := by simp [step, nextTurn, h]

theorem step_cons {s : State} {i : Input} {rest : List Input} (h : s.inputs = i :: rest) :
    step s = takeInput i { s with inputs := rest } := by simp [step, nextTurn, h]

/-- The decoder gives only commands. -/
theorem isCommand_of_decodeCommand {v : Word} {i : Instr} (h : decodeCommand v = .ok i) : i.isCommand = true := by
  unfold decodeCommand decodePlain at h
  split at h
  · split at h <;> cases h; rfl
  · split at h
    · split at h <;> cases h; rfl
    · split at h
      · split at h <;> cases h; rfl
      · cases h

/-- Everything CONSTRUCT can do (40_builder.md R114). -/
theorem execConstruct_cases (r m : Nat) (s : State) :
    (r < m ∧ m ≤ s.cap.mMax ∧ execConstruct r m s = .next (finish .constructed (install r m s))) ∨
    (¬(r < m ∧ m ≤ s.cap.mMax) ∧ execConstruct r m s = .next (finish .paramError s)) := by
  unfold execConstruct
  split
  · rename_i h
    simp only [paramsOk, Bool.and_eq_true, decide_eq_true_eq] at h
    exact .inl ⟨h.1, h.2, rfl⟩
  · rename_i h
    simp only [paramsOk, Bool.and_eq_true, decide_eq_true_eq] at h
    exact .inr ⟨h, rfl⟩

/-- Everything ENCODE can do (41_encode.md R142). -/
theorem execEncode_cases (s : State) :
    (s.cfg.valid = false ∧ execEncode s = .next (failClearing .notConstructed s)) ∨
    (s.cfg.valid = true ∧ s.inLen.toNat ≠ s.msgLen ∧ execEncode s = .next (failClearing .lengthError s)) ∨
    (s.cfg.valid = true ∧ s.inLen.toNat = s.msgLen ∧
      execEncode s = .next (finish .encoded (putOut s.codeLen (encodeCore s.tables s.codeLen (s.inputVec s.msgLen)) s))) := by
  unfold execEncode
  cases hv : s.cfg.valid
  · exact .inl ⟨rfl, rfl⟩
  · by_cases hl : s.inLen.toNat = s.msgLen
    · exact .inr (.inr ⟨rfl, hl, by simp [hl]⟩)
    · exact .inr (.inl ⟨rfl, hl, by simp [hl]⟩)

/-- Everything DECODE can do (42_decode.md R157). -/
theorem execDecode_cases (s : State) :
    (s.cfg.valid = false ∧ execDecode s = .next (failClearing .notConstructed s)) ∨
    (s.cfg.valid = true ∧ s.inLen.toNat ≠ s.codeLen ∧ execDecode s = .next (failClearing .lengthError s)) ∨
    (s.cfg.valid = true ∧ s.inLen.toNat = s.codeLen ∧
      decodeCore s.tables s.order s.codeLen (s.inputVec s.codeLen) = .ambiguous ∧
      execDecode s = .next (failClearing .ambiguous s)) ∨
    (s.cfg.valid = true ∧ s.inLen.toNat = s.codeLen ∧
      ∃ w, decodeCore s.tables s.order s.codeLen (s.inputVec s.codeLen) = .decoded w ∧
        execDecode s = .next (finish .decoded (putOut s.msgLen w s))) := by
  unfold execDecode
  cases hv : s.cfg.valid
  · exact .inl ⟨rfl, rfl⟩
  · by_cases hl : s.inLen.toNat = s.codeLen
    · cases hd : decodeCore s.tables s.order s.codeLen (s.inputVec s.codeLen) with
      | ambiguous => exact .inr (.inr (.inl ⟨rfl, hl, rfl, by simp [hl, reportDecoded]⟩))
      | decoded w => exact .inr (.inr (.inr ⟨rfl, hl, w, rfl, by simp [hl, reportDecoded]⟩))
    · exact .inr (.inl ⟨rfl, hl, by simp [hl]⟩)

/-- Everything a completion step can do (70_reset_and_hazards.md R203). -/
theorem completionStep_cases (s : State) :
    ((∃ e, decodeCommand s.latch = .error e) ∧ completionStep s = .next (rejectIllegal s)) ∨
    (∃ r m, decodeCommand s.latch = .ok (.construct r m) ∧ completionStep s = execConstruct r m s) ∨
    (decodeCommand s.latch = .ok .encode ∧ completionStep s = execEncode s) ∨
    (decodeCommand s.latch = .ok .decode ∧ completionStep s = execDecode s) := by
  unfold completionStep
  cases h : decodeCommand s.latch with
  | error e => exact .inl ⟨⟨e, rfl⟩, rfl⟩
  | ok i =>
    have hc := isCommand_of_decodeCommand h
    cases i with
    | construct r m => exact .inr (.inl ⟨r, m, rfl, rfl⟩)
    | encode => exact .inr (.inr (.inl ⟨rfl, rfl⟩))
    | decode => exact .inr (.inr (.inr ⟨rfl, rfl⟩))
    | blockLength => cases hc
    | messageLength => cases hc
    | strength => cases hc

/-- The completion step clears BUSY, and it neither reads nor writes the model's own fields `rdata`, `draws` and `inputs`. -/
theorem completionStep_own_fields (s : State) (x : Word) (k : Nat) (ins : List Input) :
    ∃ t, completionStep s = .next t ∧ t.status.busy = false ∧ t.rdata = s.rdata ∧ t.draws = s.draws ∧ t.inputs = s.inputs ∧
      completionStep { s with rdata := x, draws := k, inputs := ins } = .next { t with rdata := x, draws := k, inputs := ins } := by
  have run : ∀ {i}, decodeCommand s.latch = .ok i → completionStep { s with rdata := x, draws := k, inputs := ins } =
      exec i { s with rdata := x, draws := k, inputs := ins } := fun h => by simp [completionStep, h]
  rcases completionStep_cases s with ⟨⟨e, he⟩, h⟩ | ⟨r, m, hd, h⟩ | ⟨hd, h⟩ | ⟨hd, h⟩
  · exact ⟨_, h, rfl, rfl, rfl, rfl, by simp [completionStep, he]; rfl⟩
  · rw [h, run hd]
    rcases execConstruct_cases r m s with ⟨hr, hm, h'⟩ | ⟨hn, h'⟩
    · exact ⟨_, h', rfl, rfl, rfl, rfl, if_pos (by simp [paramsOk, hr, hm])⟩
    · exact ⟨_, h', rfl, rfl, rfl, rfl, if_neg (by simp [paramsOk]; omega)⟩
  · rw [h, run hd]
    rcases execEncode_cases s with ⟨hv, h'⟩ | ⟨hv, hl, h'⟩ | ⟨hv, hl, h'⟩
    · exact ⟨_, h', rfl, rfl, rfl, rfl, if_pos hv⟩
    · exact ⟨_, h', rfl, rfl, rfl, rfl, (if_neg (by simp [hv])).trans (if_pos hl)⟩
    · exact ⟨_, h', rfl, rfl, rfl, rfl, (if_neg (by simp [hv])).trans (if_neg (fun c => c hl))⟩
  · rw [h, run hd]
    have report : ∀ {z}, decodeCore s.tables s.order s.codeLen (s.inputVec s.codeLen) = z →
        (Host.Outcome.next (reportDecoded (decodeCore s.tables s.order s.codeLen (s.inputVec s.codeLen))
          { s with rdata := x, draws := k, inputs := ins }) : Host.Outcome State Fault Refusal) =
        .next (reportDecoded z { s with rdata := x, draws := k, inputs := ins }) := fun h => by rw [h]
    rcases execDecode_cases s with ⟨hv, h'⟩ | ⟨hv, hl, h'⟩ | ⟨hv, hl, hz, h'⟩ | ⟨hv, hl, w, hz, h'⟩
    · exact ⟨_, h', rfl, rfl, rfl, rfl, if_pos hv⟩
    · exact ⟨_, h', rfl, rfl, rfl, rfl, (if_neg (by simp [hv])).trans (if_pos hl)⟩
    · exact ⟨_, h', rfl, rfl, rfl, rfl, (if_neg (by simp [hv])).trans ((if_neg (fun c => c hl)).trans (report hz))⟩
    · exact ⟨_, h', rfl, rfl, rfl, rfl, (if_neg (by simp [hv])).trans ((if_neg (fun c => c hl)).trans (report hz))⟩

/-- An accessor's address is the register it reads (20_memory.md R51), so every admitted read is one host read. -/
theorem hostAccess_read {a : Word} {width : Nat} (s : State) (h : admissible a width = true) :
    hostAccess (.read a width) s = .next (hostRead (locate s.cap a) s) := by
  simp only [hostAccess, h, Bool.true_eq_false, if_false]
  by_cases h1 : a = 0x00C#32
  · subst h1; rfl
  · by_cases h2 : a = 0x010#32
    · subst h2; rfl
    · by_cases h3 : a = 0x014#32
      · subst h3; rfl
      · simp [decodeRead, h1, h2, h3]

theorem hostAccess_write {a v : Word} {width : Nat} {s : State} (h : admissible a width = true) (hb : s.status.busy = false) :
    hostAccess (.write a width v) s = .next (hostWrite (locate s.cap a) v s) := by simp [hostAccess, h, hb]

/-- Everything a host access that has a step can do. -/
theorem hostAccess_cases {acc : HostAccess} {s t : State} (h : hostAccess acc s = .next t) :
    (∃ a width, acc = .read a width ∧ admissible a width = true ∧ t = hostRead (locate s.cap a) s) ∨
    (∃ a width v, acc = .write a width v ∧ admissible a width = true ∧ s.status.busy = false ∧
      t = hostWrite (locate s.cap a) v s) := by
  cases acc with
  | read a width =>
    by_cases ha : admissible a width = true
    · rw [hostAccess_read s ha] at h; cases h
      exact .inl ⟨a, width, rfl, ha, rfl⟩
    · simp [hostAccess, ha] at h
  | write a width v =>
    by_cases ha : admissible a width = true
    · cases hb : s.status.busy
      · rw [hostAccess_write ha hb] at h; cases h
        exact .inr ⟨a, width, v, rfl, ha, rfl, rfl⟩
      · simp [hostAccess, ha, hb] at h
    · simp [hostAccess, ha] at h

/-- The state a step's event acts on: its own event taken off the inputs. -/
def afterPop (s : State) : State := { s with inputs := s.inputs.tail }

/-- Everything a step can do. -/
theorem step_cases {s t : State} (h : step s = .next t) :
    ((s.inputs = [] ∨ s.inputs.head? = some .sequencer) ∧ s.status.busy = false ∧ t = afterPop s) ∨
    ((s.inputs = [] ∨ s.inputs.head? = some .sequencer) ∧ s.status.busy = true ∧ completionStep (afterPop s) = .next t) ∨
    (s.inputs.head? = some .reset ∧ t = resetBlock (afterPop s)) ∨
    (∃ a width, s.inputs.head? = some (.access (.read a width)) ∧ admissible a width = true ∧
      t = hostRead (locate s.cap a) (afterPop s)) ∨
    (∃ a width v, s.inputs.head? = some (.access (.write a width v)) ∧ admissible a width = true ∧ s.status.busy = false ∧
      t = hostWrite (locate s.cap a) v (afterPop s)) := by
  cases hi : s.inputs with
  | nil =>
    have pop : afterPop s = s := by cases s; simp_all [afterPop]
    rw [step_nil hi, sequencerTurn] at h
    cases hb : s.status.busy
    · simp only [hb, Bool.false_eq_true, if_false] at h; cases h
      exact .inl ⟨.inl rfl, rfl, pop.symm⟩
    · simp only [hb, if_true] at h
      exact .inr (.inl ⟨.inl rfl, rfl, pop.symm ▸ h⟩)
  | cons i rest =>
    have pop : afterPop s = { s with inputs := rest } := by simp [afterPop, hi]
    rw [step_cons hi, ← pop] at h
    cases i with
    | sequencer =>
      simp only [takeInput, sequencerTurn] at h
      have hb' : (afterPop s).status.busy = s.status.busy := rfl
      cases hb : s.status.busy
      · simp only [hb', hb, Bool.false_eq_true, if_false] at h; cases h
        exact .inl ⟨.inr rfl, rfl, rfl⟩
      · simp only [hb', hb, if_true] at h
        exact .inr (.inl ⟨.inr rfl, rfl, h⟩)
    | reset => cases h; exact .inr (.inr (.inl ⟨rfl, rfl⟩))
    | access acc =>
      rcases hostAccess_cases h with ⟨a, w, rfl, ha, rfl⟩ | ⟨a, w, v, rfl, ha, hb, rfl⟩
      · exact .inr (.inr (.inr (.inl ⟨a, w, rfl, ha, rfl⟩)))
      · exact .inr (.inr (.inr (.inr ⟨a, w, v, rfl, ha, hb, rfl⟩)))

end Sys2Proof.Machine
end

