-- ==== Sys2Proof/Laws/HostProgram.lean ====
section
/-! SUPPORT. What the host agent's lines do to the block: one lemma for each kind of move, and the value CONSTRUCT writes. -/

namespace Sys2Proof.Machine

/-- An admitted read always has a step, and it is `hostRead`. -/
theorem blockAfter_read {a : Word} (s : State) (h : admissible a 4 = true) :
    blockAfter (.access (.read a 4)) s = some (hostRead (locate s.cap a) { s with inputs := [] }) := by
  unfold blockAfter
  rw [step_cons (rest := []) rfl]
  simp only [takeInput]
  rw [hostAccess_read _ h]

/-- An admitted write, with no command pending, has a step, and it is `hostWrite`. -/
theorem blockAfter_write {a v : Word} {s : State} (h : admissible a 4 = true) (hb : s.status.busy = false) :
    blockAfter (.access (.write a 4 v)) s = some (hostWrite (locate s.cap a) v { s with inputs := [] }) := by
  unfold blockAfter
  rw [step_cons (rest := []) rfl]
  simp only [takeInput]
  rw [hostAccess_write (s := { s with inputs := [] }) h hb]

/-- The sequencer's move beside a pending command is the completion step. -/
theorem blockAfter_sequencer {s t : State} (hb : s.status.busy = true)
    (h : completionStep { s with inputs := [] } = .next t) : blockAfter .sequencer s = some t := by
  unfold blockAfter
  rw [step_cons (rest := []) rfl]
  simp [takeInput, sequencerTurn, hb, h]

/-- `BUSY` as a read while a command is pending shows it, whatever the draw (70_reset_and_hazards.md R204(2)). -/
theorem busyStatusWord_busy (draw : Word) : (busyStatusWord draw).getLsbD 8 = true := by
  simp only [busyStatusWord, statusWord, BitVec.getLsbD_append]; simp

/-- A read of STATUS while a command is pending shows `BUSY` and changes only the model's own fields. -/
theorem blockAfter_status_busy {s : State} (hb : s.status.busy = true) :
    blockAfter (.access (.read 0x004#32 4)) s =
      some { s with inputs := [], rdata := busyStatusWord (Config.freeWord s.draws), draws := s.draws + 1 } := by
  rw [blockAfter_read s (by decide), locate_eq_status.mpr rfl]
  simp [hostRead, hb, busyValue]

/-- A read of STATUS with no command pending returns its word. -/
theorem blockAfter_status_idle {s : State} (hb : s.status.busy = false) :
    blockAfter (.access (.read 0x004#32 4)) s = some { s with inputs := [], rdata := s.status.word } := by
  rw [blockAfter_read s (by decide), locate_eq_status.mpr rfl]
  simp [hostRead, hb, State.valueAt]

/-- A variable holds what was assigned to it last. -/
@[simp] theorem lookupVar_assignVar (x : HostName) (i v : Int) (vars : HostVars) :
    lookupVar x i (assignVar x i v vars) = some v := by simp [assignVar, lookupVar]

/-- Runs compose. -/
theorem moves_append (h : HostRun) (a b : List Turn) : h.moves (a ++ b) = (h.moves a).bind (fun g => g.moves b) := by
  induction a generalizing h with
  | nil => rfl
  | cons t rest ih => simp [HostRun.moves, ih, Option.bind_assoc]

/-- With operands of at most 255 the host line writes the command's word (R77, R78). -/
theorem constructValue_eq_encode {r m : Nat} (hr : r ≤ 255) (hm : m ≤ 255) :
    constructValue r m = (encode (.construct r m)).toNat := by
  have e : ∀ x k : Nat, x ≤ 255 → k ≤ 16 → x <<< k < 2 ^ 32 := fun x k hx hk => by
    rw [Nat.shiftLeft_eq]
    calc x * 2 ^ k ≤ 255 * 2 ^ 16 := Nat.mul_le_mul hx (Nat.pow_le_pow_right (by omega) hk)
      _ < 2 ^ 32 := by decide
  simp only [constructValue, encode, BitVec.toNat_or, BitVec.toNat_shiftLeft, BitVec.toNat_ofNat]
  rw [Nat.mod_eq_of_lt (a := m) (by omega), Nat.mod_eq_of_lt (a := r) (by omega), Nat.mod_eq_of_lt (e m 16 hm (by omega)),
    Nat.mod_eq_of_lt (e r 8 hr (by omega)), Nat.mod_eq_of_lt (by omega)]

end Sys2Proof.Machine
end

