-- ==== Sys2Proof/Laws/PerInstr.lean ====
section
/-! SUPPORT. Laws of the instructions as syntax, one lemma per constructor. -/

namespace Sys2Proof.Laws.EncodedForm

/-- A well-formed command encodes to a word with its opcode and a zero `RSV`; an accessor to a 4-byte aligned address of
region `00` (30_encoding.md R70, R76). -/
def Statement (i : Instr) : Prop :=
  i.WellFormed →
    (i.isCommand = true → rsvField (encode i) = 0#8 ∧ (opField (encode i)).toNat ∈ [1, 2, 3]) ∧
    (i.isCommand = false → (encode i).toNat % 4 = 0 ∧ (encode i).toNat < 0x40000000)

theorem opField_construct (r m : Nat) : opField (encode (.construct r m)) = 0x01#8 := by
  ext i hi
  simp only [opField, encode, BitVec.getElem_extractLsb', Nat.zero_add, BitVec.getLsbD_or, BitVec.getLsbD_shiftLeft]
  have h1 : i < 16 := by omega
  simp only [h1, hi, decide_true, Bool.not_true, Bool.and_false, Bool.false_and, Bool.false_or]
  have : i = 0 ∨ i = 1 ∨ i = 2 ∨ i = 3 ∨ i = 4 ∨ i = 5 ∨ i = 6 ∨ i = 7 := by omega
  rcases this with rfl | rfl | rfl | rfl | rfl | rfl | rfl | rfl <;> simp

theorem rsvField_construct {r m : Nat} (hr : r ≤ 255) (hm : m ≤ 255) : rsvField (encode (.construct r m)) = 0#8 := by
  have hb : ∀ x j : Nat, x ≤ 255 → 8 ≤ j → x.testBit j = false := fun x j hx hj =>
    Nat.testBit_lt_two_pow (lt_of_lt_of_le (by omega : x < 2 ^ 8) (Nat.pow_le_pow_right (by omega) hj))
  ext i hi
  simp only [rsvField, encode, BitVec.getElem_extractLsb', BitVec.getLsbD_or, BitVec.getLsbD_shiftLeft, BitVec.getLsbD_ofNat,
    hb m (24 + i - 16) hm (by omega), hb r (24 + i - 8) hr (by omega)]
  have : i = 0 ∨ i = 1 ∨ i = 2 ∨ i = 3 ∨ i = 4 ∨ i = 5 ∨ i = 6 ∨ i = 7 := by omega
  rcases this with rfl | rfl | rfl | rfl | rfl | rfl | rfl | rfl <;> simp <;> decide

theorem construct (r m : Nat) : Statement (.construct r m) := fun h => by
  simp only [Instr.WellFormed, Instr.wellFormed, Bool.and_eq_true, decide_eq_true_eq] at h
  exact ⟨fun _ => ⟨rsvField_construct h.1 h.2, by rw [opField_construct]; decide⟩, fun hc => by cases hc⟩

theorem encode : Statement .encode := fun _ => by decide
theorem decode : Statement .decode := fun _ => by decide
theorem blockLength : Statement .blockLength := fun _ => by decide
theorem messageLength : Statement .messageLength := fun _ => by decide
theorem strength : Statement .strength := fun _ => by decide

end Sys2Proof.Laws.EncodedForm
end

