-- ==== Sys2Proof/Tests/Slice0.lean ====
section
/-! SUPPORT. Small tests, their expected values from 95_test_vectors.md and the encodings of 30_encoding.md, and a witness for
the hypotheses of each statement of Certificates/Slice0/Obligations.lean. -/

namespace Sys2Proof.Tests

open Sys2Proof.Machine

/-! ## Small states: `M_MAX = 4`, instance (1, 3), message `1010` -/

def cap4 : Capacity := ⟨4, by decide, by decide⟩

/-- An instance (1, 3), IN holding `1010` (S1), nothing pending. -/
def idle : State where
  cap := cap4
  cfg := ⟨true, 3#8, 1#8⟩
  tables := buildTables 1 3
  status := ⟨.constructed, false⟩
  latch := 0#32
  inLen := 4#32
  inData := ⟨.zero, [(0, 5#8)]⟩
  outLen := 0#32
  outData := ⟨.zero, []⟩
  rdata := 0#32
  draws := 0
  inputs := []

/-- The same with a pending command word. -/
def pending (v : Word) : State := { idle with latch := v, status := ⟨.constructed, true⟩ }

/-- The same with an 8-bit received word in IN. -/
def received (b : Byte) : State := { idle with inLen := 8#32, inData := ⟨.zero, [(0, b)]⟩ }

/-- No instance. -/
def bare : State := { idle with cfg := ⟨false, 0#8, 0#8⟩, tables := Tables.empty, status := ⟨.none, false⟩ }

/-- The host's next access. -/
def withRead (s : State) (a : Word) : State := { s with inputs := [.access (.read a 4)] }
def withWrite (s : State) (a v : Word) : State := { s with inputs := [.access (.write a 4 v)] }

/-- The state after a step or an instruction, if there is one. -/
def nextOf (o : Host.Outcome State Fault Refusal) : Option State :=
  match o with
  | .next t => some t
  | .fault _ => none
  | .refused _ => none

/-- STATUS, OUT_LEN and OUT word 0 after a step. -/
def answer (o : Host.Outcome State Fault Refusal) : Option (Word × Word × Word) :=
  (nextOf o).map (fun t => (t.status.word, t.outLen, t.outData.wordAt t.cap 0))

/-- What a host read returns. -/
def valueRead (s : State) (a : Word) : Option Word := (nextOf (step (withRead s a))).map State.rdata

/-! ## Well-formedness (30_encoding.md R77) -/

theorem test_wf_refuses_large_r : Instr.wellFormed (.construct 256 3) = false := by decide
theorem test_wf_refuses_large_m : Instr.wellFormed (.construct 1 256) = false := by decide
theorem test_wf_admits_the_largest : Instr.wellFormed (.construct 255 255) = true := by decide

/-! ## Decoding: words written out from 30_encoding.md R70, R71, R76 -/

theorem test_decode_construct :
    decodeCommand (0x00#8 ++ 0x03#8 ++ 0x01#8 ++ 0x01#8 : BitVec 32) = .ok (.construct 1 3) := by decide
theorem test_decode_construct_bits : decodeTableWord 32 0b00000000000001010000010000000001 = some (.construct 4 5) := by decide
theorem test_decode_encode : decodeTableWord 32 0b00000000000000000000000000000010 = some .encode := by decide
theorem test_decode_decode : decodeTableWord 32 0b00000000000000000000000000000011 = some .decode := by decide
theorem test_decode_block_length : decodeTableWord 32 0x0000000C = some .blockLength := by decide
theorem test_decode_message_length : decodeTableWord 32 0x00000010 = some .messageLength := by decide
theorem test_decode_strength : decodeTableWord 32 0x00000014 = some .strength := by decide
theorem test_decode_refuses_reserved :
    [0x00000000, 0x01030101, 0x00000102, 0x00010002, 0x80000003, 0x00000004, 0x000000FF].map (decodeTableWord 32) =
      List.replicate 7 none := by decide
theorem test_command_space_is_not_address_space : decodeCommand 0x0000000C#32 = .error .reservedOpcode := by decide

/-! ## The first instruction after reset, each row of the table -/

theorem test_reset_construct : (nextOf (step (State.reset.withFetchWord 32 1))).map (fun t => t.status.word) = some 5#32 := by decide
theorem test_reset_encode : answer (step (State.reset.withFetchWord 32 2)) = some (7#32, 0#32, 0#32) := by decide
theorem test_reset_decode : answer (step (State.reset.withFetchWord 32 3)) = some (7#32, 0#32, 0#32) := by decide
theorem test_reset_accessors :
    [0xC, 0x10, 0x14].map (fun a => (nextOf (step (State.reset.withFetchWord 32 a))).map State.rdata) =
      List.replicate 3 (some 0#32) := by decide

/-! ## One step of each instruction (95_test_vectors.md sections 2.1 to 2.3) -/

theorem test_construct_2_4 :
    (nextOf (step (pending 0x00040201#32))).map (fun t => (t.cfg.word, t.nReg, t.kReg, t.tReg, t.status.word)) =
      some (0x80000402#32, 16#32, 11#32, 1#32, 1#32) := by decide
theorem test_construct_above_capacity :
    (nextOf (step (pending 0x00050001#32))).map (fun t => (t.cfg.word, t.status.word)) = some (0x80000301#32, 5#32) := by decide
theorem test_encode_1010 : answer (step (pending 2#32)) = some (2#32, 8#32, 0xCC#32) := by decide
theorem test_encode_ignores_bits_above_k :
    answer (exec .encode { idle with inData := ⟨.zero, [(0, 0xF5#8), (1, 0xFF#8)]⟩ }) = some (2#32, 8#32, 0xCC#32) := by decide
theorem test_decode_one_error : answer (exec .decode (received 0xCD#8)) = some (3#32, 4#32, 0x5#32) := by decide
theorem test_decode_two_errors : answer (exec .decode (received 0xCF#8)) = some (4#32, 0#32, 0x0#32) := by decide
theorem test_block_length : valueRead idle 0x00C#32 = some 8#32 := by decide
theorem test_message_length : valueRead idle 0x010#32 = some 4#32 := by decide
theorem test_strength : valueRead idle 0x014#32 = some 1#32 := by decide

/-! ## The host interface (95_test_vectors.md section 2.5) -/

theorem test_register_reads :
    [0x000#32, 0x004#32, 0x008#32, 0x018#32, 0x01C#32, 0x020#32, 0x024#32, 0x40000000#32, 0x40000004#32, 0xC0000000#32].map
      (valueRead idle) =
      [0#32, 1#32, 0x80000301#32, 4#32, 0#32, 4#32, 0#32, 5#32, 0#32, 0#32].map some := by decide
theorem test_in_word_keeps_existing_bits :
    (nextOf (step (withWrite idle 0x40000000#32 0xFFFFFFFF#32))).map (fun t => t.inData.wordAt cap4 0) = some 0x0000FFFF#32 := by
  decide
theorem test_misaligned_read_refused : nextOf (step (withRead idle 2#32)) = none := by decide
theorem test_assembler_line : assembleLine ("construct 0x1, 3".toList) = some 0x00030101#32 := by decide
theorem test_assembler_refuses : ["CONSTRUCT 256, 3", "CONSTRUCT 1 3", "NOP", "ENCODE 1"].map (fun l => assembleLine l.toList) =
    List.replicate 4 none := by decide

/-! ## Host lines (30_encoding.md R78); operands above 255 as assumption log 16 says -/

theorem test_host_construct : HostMacro.expand 0 (.construct 1 3) = [.wr (.lit 0) (.lit 0x00030101)] := by decide
theorem test_host_construct_above_255 : HostMacro.expand 0 (.construct 256 3) = [.wr (.lit 0) (.lit 0x00030001)] := by decide
theorem test_host_construct_above_32_bits : (HostRun.start idle [.construct 0 65536]).move .host = none := by decide

/-! ## The table builder (95_test_vectors.md section 2.1) -/

theorem test_subsets_4_2 : subsets 4 2 = [[0, 1], [0, 2], [0, 3], [1, 2], [1, 3], [2, 3]] := by decide
theorem test_variable_vectors : (variableVector 3 0, variableVector 3 2) =
    ([true, true, true, true, false, false, false, false], [true, false, true, false, true, false, true, false]) := by decide
theorem test_bounds_3_4 : ((buildTables 3 4).lower, (buildTables 3 4).upper) = ([0, 1, 5, 11], [0, 4, 10, 14]) := by decide

/-! ## Witnesses: concrete states and operands that meet the hypotheses of each statement -/

theorem idle_cfgLegal : idle.CfgLegal := ⟨by decide, by decide⟩
theorem idle_tablesMatch : idle.TablesMatch := rfl
theorem bare_cfgLegal : bare.CfgLegal := ⟨by decide, by decide⟩

theorem witness_SequencerStepRunsTheDecodedCommand :
    (pending 2#32).SequencerNext [] ∧ (pending 2#32).status.busy = true ∧ decodeCommand (pending 2#32).latch = .ok .encode ∧
    ({ pending 2#32 with inputs := [.sequencer, .reset] } : State).SequencerNext [.reset] := ⟨.inr ⟨rfl, rfl⟩, rfl, rfl, .inl rfl⟩
theorem witness_HostReadOfAnAccessorAddressRunsTheAccessor :
    (withRead idle 0x00C#32).inputs = [.access (.read 0x00C#32 4)] ∧ decodeRead 0x00C#32 = some .blockLength := ⟨rfl, rfl⟩
theorem witness_PlacedTableWordIsTheNextInstruction :
    decodeTableWord 32 0x00FFFF01 = some (.construct 255 255) ∧ decodeTableWord 8 0x14 = some .strength := by decide
theorem witness_IllegalWordChangesOnlyTheResult :
    legalWord (pending 0x01030101#32).latch = false := rfl
theorem witness_SequencerIsIdleWhileNotBusy : idle.SequencerNext [] ∧ idle.status.busy = false := ⟨.inr ⟨rfl, rfl⟩, rfl⟩
theorem witness_DecodeOfEncodeIsTheInstruction : Instr.WellFormed (.construct 255 255) ∧ Instr.WellFormed .strength := by decide
theorem witness_EncodeOfDecodedCommandIsTheWord : decodeCommand 0x00FF0001#32 = .ok (.construct 0 255) := rfl
theorem witness_ConstructInstallsTheInstance :
    (0 < 1 ∧ 1 ≤ idle.cap.mMax) ∧ (3 < 4 ∧ 4 ≤ idle.cap.mMax) := by decide
theorem witness_ParameterErrorChangesOnlyTheResult :
    ∀ v ∈ [0x00030301#32, 0x00050001#32, 0x00000001#32], (pending v).latch &&& 0xFF0000FF#32 = 0x00000001#32 ∧
      ((pending v).latch.toNat / 2 ^ 16 % 2 ^ 8 ≤ (pending v).latch.toNat / 2 ^ 8 % 2 ^ 8 ∨
        (pending v).cap.mMax < (pending v).latch.toNat / 2 ^ 16 % 2 ^ 8) := by
  intro v hv
  simp only [List.mem_cons, List.not_mem_nil, or_false] at hv
  rcases hv with rfl | rfl | rfl <;> decide
theorem witness_EncodePutsOutTheCodeword : idle.CfgLegal ∧ idle.TablesMatch ∧ idle.cfg.valid = true ∧ idle.inLen = idle.kReg :=
  ⟨idle_cfgLegal, idle_tablesMatch, rfl, by decide⟩
theorem witness_DecodePutsOutTheMessage :
    (received 0xCD#8).CfgLegal ∧ (received 0xCD#8).TablesMatch ∧ (received 0xCD#8).cfg.valid = true ∧
    (received 0xCD#8).inLen = (received 0xCD#8).nReg ∧
    decodeCore (buildTables 1 3) 1 (2 ^ 3) ((received 0xCD#8).inData.readVec cap4 8) = .decoded [true, false, true, false] :=
  ⟨idle_cfgLegal, rfl, rfl, by decide, by decide⟩
theorem witness_AmbiguousDecodeClearsTheOutput :
    (received 0xCF#8).CfgLegal ∧ (received 0xCF#8).TablesMatch ∧ (received 0xCF#8).cfg.valid = true ∧
    (received 0xCF#8).inLen = (received 0xCF#8).nReg ∧
    decodeCore (buildTables 1 3) 1 (2 ^ 3) ((received 0xCF#8).inData.readVec cap4 8) = .ambiguous :=
  ⟨idle_cfgLegal, rfl, rfl, by decide, by decide⟩
theorem witness_LengthMismatchClearsTheOutput :
    idle.CfgLegal ∧ idle.cfg.valid = true ∧ idle.inLen ≠ idle.nReg ∧ (received 0#8).inLen ≠ (received 0#8).kReg :=
  ⟨idle_cfgLegal, rfl, by decide, by decide⟩
theorem witness_WithoutAnInstanceTheOutputIsCleared : bare.cfg.valid = false := rfl
theorem witness_CommandsIgnoreBitsBeyondTheVector : idle.cfg.valid = true ∧
    (∀ i < idle.msgLen, Buffer.bit idle.cap ⟨.zero, [(0, 0xF5#8)]⟩ i = idle.inData.bit idle.cap i) ∧
    (∀ i < idle.codeLen, Buffer.bit idle.cap ⟨.zero, [(0, 5#8), (1, 0xFF#8)]⟩ i = idle.inData.bit idle.cap i) :=
  ⟨rfl, by decide, by decide⟩
theorem witness_EveryCommandHasItsOneOutcome :
    (∀ v, (pending v).CfgLegal) ∧ ({ bare with latch := 2#32, status := ⟨.none, true⟩ } : State).CfgLegal :=
  ⟨fun _ => idle_cfgLegal, bare_cfgLegal⟩
theorem witness_AccessorsReturnTheParameters :
    (idle.status.busy = false ∧ idle.CfgLegal ∧ idle.cfg.valid = true) ∧
    (bare.status.busy = false ∧ bare.CfgLegal ∧ bare.cfg.valid = false) := ⟨⟨rfl, idle_cfgLegal, rfl⟩, rfl, bare_cfgLegal, rfl⟩
theorem witness_AccessorsWhileBusyReturnAFreeDraw :
    (pending 2#32).status.busy = true ∧ ∀ i ∈ [Instr.blockLength, .messageLength, .strength], i.isCommand = false := by decide
theorem witness_ParametersFitTheirRegisters : idle.CfgLegal ∧ idle.cfg.valid = true := ⟨idle_cfgLegal, rfl⟩
theorem witness_ReadsFollowTheAddressMap :
    (∀ a, (withRead idle a).status.busy = false ∧ (withRead idle a).inputs = [.access (.read a 4)]) ∧ idle.cap.words = 1 ∧
    (∀ a ∈ [0x000#32, 0x004#32, 0x008#32, 0x00C#32, 0x010#32, 0x014#32, 0x018#32, 0x01C#32, 0x020#32, 0x024#32, 0x3FFFFFFC#32,
      0x40000000#32, 0x40000004#32, 0x7FFFFFFC#32, 0x80000000#32, 0x80000004#32, 0xC0000000#32, 0xFFFFFFFC#32],
      a.toNat % 4 = 0) := ⟨fun _ => ⟨rfl, rfl⟩, by decide, by simp⟩
theorem witness_WritesReachOnlyCmdInLenAndInData :
    (∀ a v, (withWrite idle a v).status.busy = false ∧ (withWrite idle a v).inputs = [.access (.write a 4 v)]) ∧
    (∀ a ∈ [0x000#32, 0x018#32, 0x40000000#32], a.toNat % 4 = 0) ∧
    (∀ a ∈ [0x004#32, 0x01C#32, 0x3FFFFFFC#32, 0x40000004#32, 0x80000000#32, 0xFFFFFFFC#32], a.toNat % 4 = 0 ∧ a ≠ 0x000#32 ∧
      a ≠ 0x018#32 ∧ (a.toNat < 0x40000000 ∨ 0x40000000 + 4 * idle.cap.words ≤ a.toNat)) :=
  ⟨fun _ _ => ⟨rfl, rfl⟩, by simp, by simp [show idle.cap.words = 1 by decide]⟩
theorem witness_MisalignedOrNarrowAccessIsRefused :
    ((2 : Nat) ≠ 4 ∨ (0x004#32).toNat % 4 ≠ 0) ∧ ((4 : Nat) ≠ 4 ∨ (0x002#32).toNat % 4 ≠ 0) ∧
    (withRead idle 2#32).inputs = [.access (.read 2#32 4)] ∧ (withWrite idle 2#32 0#32).inputs = [.access (.write 2#32 4 0#32)] := by
  decide
theorem witness_BusyProtocolHolds :
    (∀ a, (withRead (pending 2#32) a).status.busy = true ∧ (withRead (pending 2#32) a).inputs = [.access (.read a 4)]) ∧
    (∀ a v, (withWrite (pending 2#32) a v).status.busy = true ∧ (withWrite (pending 2#32) a v).inputs = [.access (.write a 4 v)]) ∧
    (0x004#32).toNat % 4 = 0 ∧ (0x00C#32).toNat % 4 = 0 ∧ (∃ t, step (pending 2#32) = .next t) :=
  ⟨fun _ => ⟨rfl, rfl⟩, fun _ _ => ⟨rfl, rfl⟩, by decide, by decide, ⟨_, rfl⟩⟩
theorem witness_PendingCommandCompletesAfterFinitelyManyReads :
    (pending 2#32).status.busy = true ∧ (∀ a ∈ [0x004#32, 0x00C#32], a.toNat % 4 = 0) ∧
    ({ pending 2#32 with inputs := [.access (.read 0x004#32 4), .access (.read 0x00C#32 4), .sequencer] } : State).inputs =
      [0x004#32, 0x00C#32].map (fun a => .access (.read a 4)) ++ .sequencer :: [] := ⟨rfl, by simp, rfl⟩
theorem witness_LoadvPlacesTheVector : idle.status.busy = false ∧ (ones 16).length ≤ idle.cap.nMax ∧
    (zeros 0).length ≤ idle.cap.nMax := by decide
theorem witness_BusyChangesOnlyByIssueCompletionOrReset :
    (∃ t, step (withWrite idle 0#32 2#32) = .next t ∧ idle.status.busy = false ∧ t.status.busy = true) ∧
    (∃ t, step (pending 2#32) = .next t ∧ (pending 2#32).status.busy = true ∧ t.status.busy = false) ∧
    (∃ t, step { pending 2#32 with inputs := [.reset] } = .next t ∧ t.status.busy = false) :=
  ⟨⟨_, rfl, rfl, rfl⟩, ⟨_, rfl, rfl, by decide⟩, ⟨_, rfl, rfl⟩⟩
theorem witness_OnlyConstructAndResetChangeTheInstance :
    ∃ t, step (pending 0x00020001#32) = .next t ∧ (pending 0x00020001#32).inputs.head? ≠ some .reset ∧
      t.cfg ≠ (pending 0x00020001#32).cfg ∧ (pending 0x00020001#32).cfg.valid = true := ⟨_, rfl, by decide, by decide, rfl⟩
theorem witness_OnlyHostWritesAndResetChangeTheInput :
    (∃ t, step (withWrite idle 0x018#32 8#32) = .next t ∧ (withWrite idle 0x018#32 8#32).inputs.head? ≠ some .reset ∧
      t.inLen ≠ idle.inLen) ∧
    (∃ t, step (withWrite idle 0x40000000#32 8#32) = .next t ∧ (withWrite idle 0x40000000#32 8#32).inputs.head? ≠ some .reset ∧
      t.inData ≠ idle.inData) := ⟨⟨_, rfl, by decide, by decide⟩, ⟨_, rfl, by decide, by decide⟩⟩
theorem witness_OnlyEncodeDecodeAndResetChangeTheOutput :
    (∃ t, step (pending 2#32) = .next t ∧ (pending 2#32).inputs.head? ≠ some .reset ∧ t.outLen ≠ idle.outLen) ∧
    (∃ t, step { received 0xCD#8 with latch := 3#32, status := ⟨.none, true⟩ } = .next t ∧ t.outData ≠ idle.outData) :=
  ⟨⟨_, rfl, by decide, by decide⟩, ⟨_, rfl, by decide⟩⟩
theorem witness_ResetEventLeavesTheResetValues :
    ({ pending 2#32 with inputs := [.reset, .sequencer] } : State).inputs = .reset :: [.sequencer] := rfl
theorem witness_EveryStepKeepsTheInvariant :
    (withWrite (State.afterReset cap4 0) 0x40000000#32 5#32).Inv ∧
    ∃ t, step (withWrite (State.afterReset cap4 0) 0x40000000#32 5#32) = .next t :=
  ⟨⟨⟨by decide, by decide⟩, rfl, ⟨rfl, rfl⟩, ⟨rfl, rfl⟩, nofun⟩, ⟨_, rfl⟩⟩
theorem witness_WaitEndsOnceTheCommandHasCompleted : (pending 2#32).status.busy = true ∧
    ({ HostRun.start (pending 2#32) [.wait] with pending := true } : HostRun).ended = false := by decide
theorem witness_AssemblerGivesTheCommandWords : 255 ≤ 255 ∧ 0 ≤ 255 ∧ 255 < 256 := by decide
theorem witness_BufferWordReadsBackAsWritten : 0 < 32 ∧ 31 < 32 := by decide
theorem witness_MonomialsAreTheSubsetsByDegree : 1 < 3 ∧ 1 ≤ 1 ∧ 2 < 3 ∧ 3 ≤ 3 := by decide
theorem witness_VariableVectorIsTheTiledRunPattern : 0 < 3 ∧ 2 < 3 ∧ 7 < 2 ^ 3 := by decide
theorem witness_EvaluationVectorIsTheProduct : [0, 2].Perm [2, 0] ∧ 7 < 2 ^ 3 := by decide
theorem witness_GeneratorMatrixRowsEvaluateTheMonomials : 2 < 3 ∧ 6 < messageLength 2 3 ∧ 7 < 2 ^ 3 := by decide
theorem witness_DegreeBoundariesDelimitTheDegrees : 2 < 3 ∧ 1 < 2 ∧ 2 ≤ 2 ∧ 6 < (buildTables 2 3).mono.length := by decide
theorem witness_VotingFamilyPartitionsTheCube : 2 < 3 ∧ [0, 2] ∈ monomials 2 3 ∧ 7 < 2 ^ 3 ∧
    1 < 3 ∧ 1 ∉ [0, 2] ∧ 6 < messageLength 2 3 := by decide
theorem witness_SomeErrorBeyondTheStrengthIsNotCorrected : 0 < 1 ∧ 1 < 3 := by decide
theorem witness_CodewordElementIsTheDotProductWithItsColumn :
    1 < 3 ∧ [true, false, true, false].length = messageLength 1 3 ∧ 7 < 2 ^ 3 := by decide
theorem witness_EncodeCoreIsTheXorOfTheSelectedRows :
    1 < 3 ∧ [true, false, true, false].length = messageLength 1 3 ∧ (ones 4).length = messageLength 1 3 := by decide
theorem witness_OrderOfTheRowsOfADegreeDoesNotMatter : [1, 2, 3].Perm [3, 1, 2] ∧
    (decideRows (buildTables 1 3) (zeros 8) [1, 2, 3]).isSome = true ∧
    (decideRows (buildTables 1 3) (zeros 8) [3, 1, 2]).isSome = true := by decide
theorem witness_DecodeOfEncodedMessageIsTheMessage : 2 < 3 ∧ (ones 7).length = messageLength 2 3 := by decide
theorem witness_UpToStrengthErrorsAreCorrected :
    1 < 3 ∧ (ones 4).length = messageLength 1 3 ∧ (true :: zeros 7).length = 2 ^ 3 ∧ popcount (true :: zeros 7) ≤ strength 1 3 := by
  decide
theorem witness_DecodeIsEquivariant : 1 < 3 ∧ (ones 4).length = messageLength 1 3 ∧ (true :: zeros 7).length = 2 ^ 3 ∧
    decodeCore (buildTables 1 3) 1 (2 ^ 3) (true :: zeros 7) = .decoded (zeros 4) := by decide
theorem witness_SingleErrorIsAmbiguousAtStrengthZero : (ones 3).length = messageLength 1 2 ∧ (true :: zeros 3).length = 2 ^ 2 ∧
    popcount (true :: zeros 3) = 1 := by decide
theorem witness_RepetitionCodeDecodesByMajority : 1 ≤ 2 ∧ [true, true, false, false].length = 2 ^ 2 ∧
    2 * popcount [true, true, false, false] = 2 ^ 2 := by decide
/-- IN after the host carries the codeword over with its first bit flipped. -/
theorem witness_BlockCorrectsUpToStrengthErrors : ∃ s1 s2 : State, idle.CfgLegal ∧ idle.TablesMatch ∧ idle.cfg.valid = true ∧
    idle.inLen = idle.kReg ∧ exec .encode idle = .next s1 ∧ s2.cap = s1.cap ∧ s2.cfg = s1.cfg ∧ s2.tables = s1.tables ∧
    s2.inLen = s1.outLen ∧ (true :: zeros 7).length = s1.outLen.toNat ∧ popcount (true :: zeros 7) ≤ idle.tReg.toNat ∧
    s2.inData.readVec s2.cap s2.inLen.toNat = vxor (s1.outData.readVec s1.cap s1.outLen.toNat) (true :: zeros 7) := by
  refine ⟨{ idle with status := ⟨.encoded, false⟩, outLen := 8#32, outData := ⟨.zero, [(0, 0xCC#8)]⟩ }, received 0xCD#8,
    idle_cfgLegal, idle_tablesMatch, rfl, by decide, ?_, rfl, rfl, rfl, rfl, by decide, by decide, by decide⟩
  rw [show exec .encode idle = .next (finish .encoded (putOut 8 (encodeCore (buildTables 1 3) 8 (idle.inputVec 4)) idle)) from rfl]
  rw [show encodeCore (buildTables 1 3) 8 (idle.inputVec 4) = [false, false, true, true, false, false, true, true] by decide]
  rfl

end Sys2Proof.Tests
end

/-! PROOFS. The command decoder (30_encoding.md R70 to R73): which words it accepts and as what, by fields and by match and
mask. -/

namespace Sys2Proof.Proofs

/-- R70: `RV` as a part of the word's number. -/
theorem rvField_toNat (v : Word) : (rvField v).toNat = v.toNat / 2 ^ 8 % 2 ^ 8 := by
  rw [rvField, BitVec.extractLsb'_toNat, Nat.shiftRight_eq_div_pow]

/-- R70: `MV` as a part of the word's number. -/
theorem mvField_toNat (v : Word) : (mvField v).toNat = v.toNat / 2 ^ 16 % 2 ^ 8 := by
  rw [mvField, BitVec.extractLsb'_toNat, Nat.shiftRight_eq_div_pow]

theorem legalWord_iff (v : Word) : legalWord v = true ↔
    (opField v = 0x01#8 ∧ rsvField v = 0#8) ∨ (opField v = 0x02#8 ∧ v.extractLsb' 8 24 = 0#24) ∨
    (opField v = 0x03#8 ∧ v.extractLsb' 8 24 = 0#24) := by
  simp only [legalWord, Bool.or_eq_true, Bool.and_eq_true, beq_iff_eq, or_assoc]

/-! ## What the decoder gives -/

theorem decodePlain_eq_ok_iff (v : Word) (i j : Instr) :
    decodePlain v i = .ok j ↔ v.extractLsb' 8 24 = 0#24 ∧ j = i := by
  unfold decodePlain
  split
  next h => simp [h, eq_comm]
  next h => simp [h]

/-- Everything the decoder can give, with the fields it gives it for (R71 to R73). -/
theorem decodeCommand_eq_ok_iff (v : Word) (i : Instr) : decodeCommand v = .ok i ↔
    (opField v = 0x01#8 ∧ rsvField v = 0#8 ∧ i = .construct (rvField v).toNat (mvField v).toNat) ∨
    (opField v = 0x02#8 ∧ v.extractLsb' 8 24 = 0#24 ∧ i = .encode) ∨
    (opField v = 0x03#8 ∧ v.extractLsb' 8 24 = 0#24 ∧ i = .decode) := by
  unfold decodeCommand
  split
  next h1 =>
    split
    next h => simp [h1, h, eq_comm]
    next h => simp [h1, h]
  next h1 =>
    split
    next h2 => simp [h2, decodePlain_eq_ok_iff]
    next h2 =>
      split
      next h3 => simp [h3, decodePlain_eq_ok_iff]
      next h3 => simp [h1, h2, h3]

theorem exists_decodeCommand_eq_ok_iff (v : Word) : (∃ i, decodeCommand v = .ok i) ↔ legalWord v = true := by
  simp only [decodeCommand_eq_ok_iff, legalWord_iff, exists_or, exists_and_left, exists_eq, and_true]

theorem decodeCommand_eq_construct_iff (v : Word) :
    decodeCommand v = .ok (.construct (rvField v).toNat (mvField v).toNat) ↔ opField v = 0x01#8 ∧ rsvField v = 0#8 := by
  simp [decodeCommand_eq_ok_iff]

theorem decodeCommand_eq_encode_iff (v : Word) :
    decodeCommand v = .ok .encode ↔ opField v = 0x02#8 ∧ v.extractLsb' 8 24 = 0#24 := by
  simp [decodeCommand_eq_ok_iff]

theorem decodeCommand_eq_decode_iff (v : Word) :
    decodeCommand v = .ok .decode ↔ opField v = 0x03#8 ∧ v.extractLsb' 8 24 = 0#24 := by
  simp [decodeCommand_eq_ok_iff]

/-! ## Match and mask -/

/-- A word is its bits [31:8] above its `OP`. -/
theorem append_opField (v : Word) : v.extractLsb' 8 24 ++ opField v = v :=
  (BitVec.extractLsb'_append_extractLsb'_eq_extractLsb' rfl).trans BitVec.extractLsb'_eq_self

/-- Bits [31:8] are `RSV` above the operand fields. -/
theorem rsvField_append (v : Word) : rsvField v ++ v.extractLsb' 8 16 = v.extractLsb' 8 24 :=
  BitVec.extractLsb'_append_extractLsb'_eq_extractLsb' rfl

/-- Two words are equal when they agree in `OP` and in bits [31:8]. -/
theorem word_eq_iff (u v : Word) : u = v ↔ opField u = opField v ∧ u.extractLsb' 8 24 = v.extractLsb' 8 24 := by
  constructor
  · rintro rfl
    exact ⟨rfl, rfl⟩
  · rintro ⟨hop, hrest⟩
    rw [← append_opField u, ← append_opField v, hop, hrest]

/-- The full mask compares `OP` and bits [31:8]; here for a match word that is an opcode alone. -/
theorem fullMask_eq_iff (v : Word) (op : Byte) :
    v &&& 0xFFFFFFFF#32 = 0#24 ++ op ↔ opField v = op ∧ v.extractLsb' 8 24 = 0#24 := by
  have hmask : v &&& 0xFFFFFFFF#32 = v := BitVec.and_allOnes
  rw [hmask, word_eq_iff, opField, opField, BitVec.extractLsb'_append_eq_right, BitVec.extractLsb'_append_eq_left]

/-- The mask 0xFF0000FF keeps `OP` and `RSV` and clears the operand fields. -/
theorem constructMask_eq_iff (v : Word) :
    v &&& 0xFF0000FF#32 = 0x00000001#32 ↔ opField v = 0x01#8 ∧ rsvField v = 0#8 := by
  have hop : opField (v &&& 0xFF0000FF#32) = opField v := by
    rw [opField, BitVec.extractLsb'_and]
    exact BitVec.and_allOnes
  have hrsv : rsvField (v &&& 0xFF0000FF#32) = rsvField v := by
    rw [rsvField, BitVec.extractLsb'_and]
    exact BitVec.and_allOnes
  have hmid : (v &&& 0xFF0000FF#32).extractLsb' 8 16 = 0#16 := by
    rw [BitVec.extractLsb'_and]
    exact BitVec.and_zero
  have hrest : (0x00000001#32).extractLsb' 8 24 = 0#8 ++ 0#16 := by decide
  rw [word_eq_iff, hop, ← rsvField_append, hrsv, hmid, hrest, BitVec.append_left_inj]
  rfl

/-- Settles O6: the decoder's results by fields, and the fields by match and mask. -/
theorem decoderAcceptsExactlyTheLegalWords : Obligations.DecoderAcceptsExactlyTheLegalWords := by
  unfold Obligations.DecoderAcceptsExactlyTheLegalWords
  intro v
  refine ⟨legalWord_iff v, exists_decodeCommand_eq_ok_iff v, ?_, ?_, ?_⟩
  · rw [← rvField_toNat, ← mvField_toNat]
    exact (constructMask_eq_iff v).trans (decodeCommand_eq_construct_iff v).symm
  · exact (fullMask_eq_iff v 0x02#8).trans (decodeCommand_eq_encode_iff v).symm
  · exact (fullMask_eq_iff v 0x03#8).trans (decodeCommand_eq_decode_iff v).symm

end Sys2Proof.Proofs

/-! PROOFS. The table builder (40_builder.md R103 to R107): the subsets in lexicographic order, the monomials by degree, and the
evaluation vectors point by point. -/

namespace Sys2Proof.Proofs

open Sys2Proof.Machine

/-! ## Which lists are combinations, and their order -/

/-- `combinations d l` lists the `d`-element subsequences of `l`. -/
theorem mem_combinations {d : Nat} {l S : List Nat} : S ∈ combinations d l ↔ S.Sublist l ∧ S.length = d := by
  induction l generalizing d S with
  | nil => cases d <;> simp +contextual [combinations]
  | cons x xs ih =>
    cases d with
    | zero => simp +contextual [combinations]
    | succ d =>
      simp only [combinations, List.mem_append, List.mem_map, ih, List.sublist_cons_iff, or_and_right]
      rw [or_comm]
      refine or_congr_right ⟨?_, ?_⟩
      · rintro ⟨T, ⟨hsub, hlen⟩, rfl⟩
        exact ⟨⟨T, rfl, hsub⟩, by rw [List.length_cons, hlen]⟩
      · rintro ⟨⟨T, rfl, hsub⟩, hlen⟩
        exact ⟨T, ⟨hsub, Nat.succ.inj hlen⟩, rfl⟩

/-- R104's order on lists of `d` elements: the first difference decides. -/
def LexBefore (d : Nat) (A B : List Nat) : Prop :=
  ∃ p < d, (∀ q < p, A.getD q 0 = B.getD q 0) ∧ A.getD p 0 < B.getD p 0

theorem LexBefore.ne {d : Nat} {A B : List Nat} (h : LexBefore d A B) : A ≠ B := by
  obtain ⟨p, -, -, hlt⟩ := h
  rintro rfl
  exact lt_irrefl _ hlt

theorem lexBefore_cons_of_lt {d x y : Nat} (h : x < y) (A B : List Nat) : LexBefore (d + 1) (x :: A) (y :: B) :=
  ⟨0, d.succ_pos, nofun, h⟩

theorem LexBefore.cons {d : Nat} {A B : List Nat} (h : LexBefore d A B) (x : Nat) :
    LexBefore (d + 1) (x :: A) (x :: B) := by
  obtain ⟨p, hp, heq, hlt⟩ := h
  refine ⟨p + 1, Nat.succ_lt_succ hp, fun q hq => ?_, hlt⟩
  cases q with
  | zero => rfl
  | succ q => exact heq q (Nat.lt_of_succ_lt_succ hq)

/-- The combinations of an increasing list stand in lexicographic order: those with its head `x` come first, and the others
begin with a larger element. -/
theorem pairwise_lexBefore_combinations {l : List Nat} (hl : l.Pairwise (· < ·)) (d : Nat) :
    (combinations d l).Pairwise (LexBefore d) := by
  induction l generalizing d with
  | nil => cases d <;> simp [combinations]
  | cons x xs ih =>
    obtain ⟨hx, hxs⟩ := List.pairwise_cons.mp hl
    cases d with
    | zero => simp [combinations]
    | succ d =>
      rw [combinations, List.pairwise_append, List.pairwise_map]
      refine ⟨(ih hxs d).imp fun h => h.cons x, ih hxs (d + 1), fun A hA B hB => ?_⟩
      obtain ⟨A, -, rfl⟩ := List.mem_map.mp hA
      obtain ⟨hsub, hlen⟩ := mem_combinations.mp hB
      obtain ⟨y, B, rfl⟩ := List.exists_cons_of_length_eq_add_one hlen
      exact lexBefore_cons_of_lt (hx y (hsub.subset List.mem_cons_self)) A B

@[simp] theorem combinations_one (l : List Nat) : combinations 1 l = l.map (fun x => [x]) := by
  induction l with
  | nil => rfl
  | cons x xs ih => simp [combinations, ih]

/-! ## The subsets of a degree -/

/-- The subsequences of `0, …, m-1` are the increasing lists of variables below `m`. -/
theorem sublist_range_iff {m : Nat} {S : List Nat} :
    S.Sublist (List.range m) ↔ S.Pairwise (· < ·) ∧ ∀ i ∈ S, i < m := by
  constructor
  · intro h
    exact ⟨List.pairwise_lt_range.sublist h, fun i hi => List.mem_range.mp (h.subset hi)⟩
  · rintro ⟨hinc, hlt⟩
    have hsub : S.Subperm (List.range m) :=
      List.subperm_of_subset (hinc.imp Nat.ne_of_lt) fun i hi => List.mem_range.mpr (hlt i hi)
    exact List.sublist_of_subperm_of_pairwise hsub (hinc.imp Nat.le_of_lt) List.pairwise_le_range

theorem mem_subsets {m d : Nat} {S : List Nat} :
    S ∈ subsets m d ↔ S.Pairwise (· < ·) ∧ (∀ i ∈ S, i < m) ∧ S.length = d := by
  rw [subsets, mem_combinations, sublist_range_iff, and_assoc]

theorem length_of_mem_subsets {m d : Nat} {S : List Nat} (h : S ∈ subsets m d) : S.length = d := (mem_subsets.mp h).2.2

theorem pairwise_lexBefore_subsets (m d : Nat) : (subsets m d).Pairwise (LexBefore d) :=
  pairwise_lexBefore_combinations List.pairwise_lt_range d

theorem nodup_subsets (m d : Nat) : (subsets m d).Nodup := (pairwise_lexBefore_subsets m d).imp LexBefore.ne

@[simp] theorem subsets_zero (m : Nat) : subsets m 0 = [[]] := by simp [subsets, combinations]

@[simp] theorem subsets_one (m : Nat) : subsets m 1 = (List.range m).map (fun i => [i]) := combinations_one _

/-- Settles O42: the combinations of the increasing list `0, …, m-1`. -/
theorem subsetsAreInLexicographicOrder : Obligations.SubsetsAreInLexicographicOrder := by
  unfold Obligations.SubsetsAreInLexicographicOrder
  exact fun m d => ⟨fun _ => mem_subsets, pairwise_lexBefore_subsets m d, subsets_zero m⟩

/-! ## The monomials of all degrees -/

theorem mem_monomials {r m : Nat} {S : List Nat} :
    S ∈ monomials r m ↔ S.Pairwise (· < ·) ∧ (∀ i ∈ S, i < m) ∧ S.length ≤ r := by
  simp only [monomials, List.mem_flatMap, List.mem_range, mem_subsets, Nat.lt_succ_iff]
  constructor
  · rintro ⟨d, hd, hinc, hlt, rfl⟩
    exact ⟨hinc, hlt, hd⟩
  · rintro ⟨hinc, hlt, hle⟩
    exact ⟨S.length, hle, hinc, hlt, rfl⟩

theorem nodup_monomials (r m : Nat) : (monomials r m).Nodup := by
  refine List.nodup_flatMap.mpr ⟨fun d _ => nodup_subsets m d, List.pairwise_lt_range.imp fun hlt => ?_⟩
  intro S hA hB
  exact hlt.ne ((length_of_mem_subsets hA).symm.trans (length_of_mem_subsets hB))

theorem pairwise_length_le_monomials (r m : Nat) : (monomials r m).Pairwise (fun A B => A.length ≤ B.length) := by
  refine List.pairwise_flatMap.mpr ⟨fun d _ => ?_, List.pairwise_lt_range.imp fun hlt A hA B hB => ?_⟩
  · refine List.pairwise_of_forall_mem_list fun A hA B hB => ?_
    rw [length_of_mem_subsets hA, length_of_mem_subsets hB]
  · rw [length_of_mem_subsets hA, length_of_mem_subsets hB]
    exact hlt.le

/-- `k` as R100 writes it. -/
theorem messageLength_eq_sum_choose {r m : Nat} (h : r ≤ m) :
    messageLength r m = ∑ i ∈ Finset.range (r + 1), m.choose i := by
  calc messageLength r m = ∑ i ∈ Finset.range (r + 1), binomial m i := rfl
    _ = ∑ i ∈ Finset.range (r + 1), m.choose i :=
      Finset.sum_congr rfl fun i hi => binomial_eq_choose ((Nat.lt_succ_iff.mp (Finset.mem_range.mp hi)).trans h)

theorem monomials_eq_nil_cons (r m : Nat) :
    monomials r m = [] :: ((List.range r).map Nat.succ).flatMap (subsets m) := by
  simp [monomials, List.range_succ_eq_map]

theorem monomials_getElem?_zero (r m : Nat) : (monomials r m)[0]? = some [] := by
  rw [monomials_eq_nil_cons]
  rfl

/-- From degree 1 on, rows 1 to `m` are the single variables. -/
theorem monomials_getElem?_succ {r m i : Nat} (hr : 1 ≤ r) (hi : i < m) : (monomials r m)[i + 1]? = some [i] := by
  obtain ⟨r, rfl⟩ := Nat.exists_eq_add_of_le' hr
  rw [monomials_eq_nil_cons, List.getElem?_cons_succ, List.range_succ_eq_map, List.map_cons, List.flatMap_cons,
    subsets_one, List.getElem?_append_left (by simpa using hi)]
  simp [hi]

/-- Settles O41: membership, order and counts degree by degree, from those of `subsets`. -/
theorem monomialsAreTheSubsetsByDegree : Obligations.MonomialsAreTheSubsetsByDegree := by
  unfold Obligations.MonomialsAreTheSubsetsByDegree
  intro r m hrm
  refine ⟨fun _ => mem_monomials, nodup_monomials r m, pairwise_length_le_monomials r m, rfl, fun d hd => ?_, ?_,
    monomials_getElem?_zero r m, fun hr i hi => monomials_getElem?_succ hr hi⟩
  · rw [length_subsets hd, binomial_eq_choose hd]
  · rw [length_monomials hrm.le, messageLength_eq_sum_choose hrm.le]

/-! ## The variables' vectors -/

/-- Element `c` of a vector given point by point. -/
theorem getD_map_range {n c : Nat} (f : Nat → Bool) (h : c < n) : ((List.range n).map f).getD c false = f c := by
  simp [List.getD, h]

theorem getD_variableVector {m c : Nat} (i : Nat) (h : c < 2 ^ m) :
    (variableVector m i).getD c false = variableBit m i c := getD_map_range _ h

theorem variableBit_eq_true_iff (m i c : Nat) : variableBit m i c = true ↔ c.testBit (m - 1 - i) = false := by
  rw [variableBit, Bool.not_eq_true']

theorem testBit_eq_false_iff_div_mod (c j : Nat) : c.testBit j = false ↔ c / 2 ^ j % 2 = 0 := by
  rw [Nat.testBit_eq_decide_div_mod_eq, decide_eq_false_iff_not, Nat.mod_two_not_eq_one]

theorem map_range_eq_replicate {n : Nat} {f : Nat → Bool} {b : Bool} (h : ∀ c < n, f c = b) :
    (List.range n).map f = List.replicate n b := by
  rw [List.map_congr_left fun c hc => h c (List.mem_range.mp hc), List.map_const', List.length_range]

/-- A vector over the points of `m + 1` variables, as its values on the two halves of the points. -/
theorem map_range_two_pow_succ (m : Nat) (f : Nat → Bool) : (List.range (2 ^ (m + 1))).map f =
    (List.range (2 ^ m)).map f ++ (List.range (2 ^ m)).map (fun c => f (2 ^ m + c)) := by
  rw [Nat.pow_succ, Nat.mul_two, List.range_add, List.map_append, List.map_map]
  rfl

/-- The first variable is 1 on the first half of the points and 0 on the second. -/
theorem variableVector_succ_zero (m : Nat) : variableVector (m + 1) 0 = ones (2 ^ m) ++ zeros (2 ^ m) := by
  rw [variableVector, blockLength, map_range_two_pow_succ]
  congr 1 <;> refine map_range_eq_replicate fun c hc => ?_
  · simp [variableBit, Nat.testBit_lt_two_pow hc]
  · simp [variableBit, Nat.testBit_two_pow_add_eq, Nat.testBit_lt_two_pow hc]

/-- Every later variable repeats, on each half of the points, its vector over one variable fewer. -/
theorem variableVector_succ_succ {m i : Nat} (h : i < m) :
    variableVector (m + 1) (i + 1) = variableVector m i ++ variableVector m i := by
  have hbit : m + 1 - 1 - (i + 1) = m - 1 - i := by omega
  rw [variableVector, blockLength, map_range_two_pow_succ]
  congr 1 <;> refine List.map_congr_left fun c _ => ?_
  · rw [variableBit, variableBit, hbit]
  · rw [variableBit, variableBit, hbit, Nat.testBit_two_pow_add_gt (by omega)]

/-- R105's pattern, by halving the points once for each earlier variable. -/
theorem variableVector_eq_flatten_runs {m i : Nat} (h : i < m) : variableVector m i =
    (List.replicate (2 ^ i) (ones (2 ^ (m - i - 1)) ++ zeros (2 ^ (m - i - 1)))).flatten := by
  induction i generalizing m with
  | zero =>
    obtain ⟨m, rfl⟩ := Nat.exists_eq_add_of_le' h
    simp [variableVector_succ_zero]
  | succ i ih =>
    obtain ⟨m, rfl⟩ := Nat.exists_eq_add_of_le' (Nat.one_le_of_lt h)
    have him : i < m := Nat.lt_of_succ_lt_succ h
    rw [variableVector_succ_succ him, ih him, Nat.pow_succ, Nat.mul_two, List.replicate_add, List.flatten_append,
      Nat.add_sub_add_right]

/-- Settles O43: the runs by halving, the elements by the model's own bit. -/
theorem variableVectorIsTheTiledRunPattern : Obligations.VariableVectorIsTheTiledRunPattern := by
  unfold Obligations.VariableVectorIsTheTiledRunPattern
  intro m i hi
  refine ⟨variableVector_eq_flatten_runs hi, fun c hc => ?_⟩
  have helem : (variableVector m i).getD c false = true ↔ c.testBit (m - 1 - i) = false := by
    rw [getD_variableVector i hc, variableBit_eq_true_iff]
  refine ⟨?_, helem⟩
  rw [helem, testBit_eq_false_iff_div_mod, Nat.sub_right_comm]

/-! ## The monomials' vectors -/

theorem evalVector_nil (m : Nat) : evalVector m [] = ones (2 ^ m) :=
  map_range_eq_replicate fun _ _ => rfl

theorem evalVector_cons (m i : Nat) (S : List Nat) :
    evalVector m (i :: S) = vand (variableVector m i) (evalVector m S) := by
  rw [vand, variableVector, evalVector, evalVector, List.zipWith_map, List.zipWith_self]
  rfl

theorem evalVector_perm (m : Nat) {S S' : List Nat} (h : S.Perm S') : evalVector m S = evalVector m S' :=
  List.map_congr_left fun _ _ => h.all_eq

theorem evalBit_eq_true_iff (m : Nat) (S : List Nat) (c : Nat) :
    evalBit m S c = true ↔ ∀ i ∈ S, c.testBit (m - 1 - i) = false := by
  simp only [evalBit, List.all_eq_true, variableBit_eq_true_iff]

theorem getD_evalVector {m c : Nat} (S : List Nat) (h : c < 2 ^ m) :
    (evalVector m S).getD c false = evalBit m S c := getD_map_range _ h

theorem getD_evalVector_eq_true_iff {m c : Nat} (S : List Nat) (h : c < 2 ^ m) :
    (evalVector m S).getD c false = true ↔ ∀ i ∈ S, c.testBit (m - 1 - i) = false := by
  rw [getD_evalVector S h, evalBit_eq_true_iff]

/-- Settles O44: the vectors are given point by point, where the product is a conjunction over the variables. -/
theorem evaluationVectorIsTheProduct : Obligations.EvaluationVectorIsTheProduct := by
  unfold Obligations.EvaluationVectorIsTheProduct
  exact fun m => ⟨evalVector_nil m, evalVector_cons m, fun _ _ => evalVector_perm m,
    fun S _ hc => getD_evalVector_eq_true_iff S hc⟩

/-! ## The generator matrix -/

theorem length_generatorMatrix {r m : Nat} (h : r ≤ m) : (generatorMatrix r m).length = messageLength r m := by
  rw [generatorMatrix, List.length_map, length_monomials h]

theorem getD_generatorMatrix {r m j : Nat} (h : j < (monomials r m).length) :
    (generatorMatrix r m).getD j [] = evalVector m ((monomials r m).getD j []) := by
  simp [generatorMatrix, List.getD, h]

/-- Settles O45: row by row from the enumeration, element by element from the evaluation vector. -/
theorem generatorMatrixRowsEvaluateTheMonomials : Obligations.GeneratorMatrixRowsEvaluateTheMonomials := by
  unfold Obligations.GeneratorMatrixRowsEvaluateTheMonomials
  intro r m hrm
  refine ⟨length_generatorMatrix hrm.le, fun j hj => ?_⟩
  have hrow : (buildTables r m).gen.getD j [] = evalVector m ((buildTables r m).mono.getD j []) :=
    getD_generatorMatrix (hj.trans_eq (length_monomials hrm.le).symm)
  rw [hrow]
  exact ⟨length_evalVector m _, rfl, fun c hc => getD_evalVector_eq_true_iff _ hc⟩

end Sys2Proof.Proofs

/-! PROOFS. The encoder (41_encode.md R140): an element of the codeword as a parity over the rows of the generator matrix. -/

namespace Sys2Proof.Proofs

open Sys2Proof.Machine

/-! ## Weight and dot product by positions -/

theorem popcount_cons (a : Bool) (v : Bits) : popcount (a :: v) = popcount v + if a then 1 else 0 := by
  simp [popcount, List.count_cons]

/-- The weight of a vector is the number of its positions that hold a 1. -/
theorem popcount_eq_length_filter_range (v : Bits) :
    popcount v = ((List.range v.length).filter (fun j => v.getD j false)).length := by
  induction v with
  | nil => rfl
  | cons a v ih =>
    rw [popcount_cons, ih, List.length_cons, List.range_succ_eq_map, List.filter_cons, List.filter_map, List.getD_cons_zero]
    cases a <;> simp [Function.comp_def]

/-- Outside the shorter vector both sides are 0. -/
theorem getD_vand (u v : Bits) (j : Nat) : (vand u v).getD j false = (u.getD j false && v.getD j false) := by
  simp only [vand, List.getD_eq_getElem?_getD, List.getElem?_zipWith]
  cases u[j]? <;> cases v[j]? <;> simp

/-- R7's mod-2 dot product counts the positions where both vectors hold a 1. -/
theorem dot2_eq_parity_filter_range {u v : Bits} (h : u.length = v.length) :
    dot2 u v = (((List.range u.length).filter (fun j => u.getD j false && v.getD j false)).length % 2 == 1) := by
  rw [dot2, popcount_eq_length_filter_range, length_vand, ← h, Nat.min_self]
  simp only [getD_vand]

/-! ## The columns of the generator matrix -/

theorem getD_columnOf (t : Tables) (c j : Nat) : (columnOf t c).getD j false = (t.gen.getD j []).getD c false :=
  List.getD_map t.gen [] (fun row : Bits => row.getD c false)

@[simp] theorem gen_buildTables (r m : Nat) : (buildTables r m).gen = generatorMatrix r m := rfl

theorem length_columnOf_buildTables {r m : Nat} (h : r ≤ m) (c : Nat) :
    (columnOf (buildTables r m) c).length = messageLength r m := by
  rw [length_columnOf, gen_buildTables, length_generatorMatrix h]

/-- `Col(c)` holds at row `j` the value of the row's monomial at point `c`. -/
theorem getD_columnOf_buildTables {r m c j : Nat} (hc : c < 2 ^ m) (hj : j < (monomials r m).length) :
    (columnOf (buildTables r m) c).getD j false = evalBit m ((monomials r m).getD j []) c := by
  rw [getD_columnOf, gen_buildTables, getD_generatorMatrix hj, getD_evalVector _ hc]

/-! ## The codeword -/

theorem getD_encodeCore {n c : Nat} (t : Tables) (msg : Bits) (h : c < n) :
    (encodeCore t n msg).getD c false = dot2 msg (columnOf t c) := getD_map_range _ h

/-- Settles O48: the dot product with `Col(c)` counts positions, and the column's element at a row is its monomial's value. -/
theorem codewordElementIsTheDotProductWithItsColumn : Obligations.CodewordElementIsTheDotProductWithItsColumn := by
  unfold Obligations.CodewordElementIsTheDotProductWithItsColumn
  intro r m msg hrm hmsg
  refine ⟨length_encodeCore _ _ _, fun c hc => ?_⟩
  have hlen : msg.length = (columnOf (buildTables r m) c).length := hmsg.trans (length_columnOf_buildTables hrm.le c).symm
  rw [getD_encodeCore _ _ hc, dot2_eq_parity_filter_range hlen, hmsg]
  congr 3
  refine List.filter_congr fun j hj => ?_
  have hrow : j < (monomials r m).length := (List.mem_range.mp hj).trans_eq (length_monomials hrm.le).symm
  rw [getD_columnOf_buildTables hc hrow]
  rfl

end Sys2Proof.Proofs

/-! PROOFS. Vectors over GF(2) (00_scope.md R7): `vxor` as a group operation, and the dot product of lists joined or given point
by point. -/

namespace Sys2Proof.Proofs

open Sys2Proof.Machine

theorem vxor_comm (u v : Bits) : vxor u v = vxor v u :=
  List.zipWith_comm_of_comm Bool.xor_comm

theorem vxor_assoc (u v w : Bits) : vxor (vxor u v) w = vxor u (vxor v w) := by
  induction u generalizing v w with
  | nil => rfl
  | cons a u ih => cases v <;> cases w <;> simp_all [vxor]

theorem vxor_right_comm (u v w : Bits) : vxor (vxor u v) w = vxor (vxor u w) v := by
  rw [vxor_assoc, vxor_comm v w, ← vxor_assoc]

theorem vxor_zeros {u : Bits} {n : Nat} (h : u.length = n) : vxor u (zeros n) = u := by
  subst h
  induction u with
  | nil => rfl
  | cons a u ih => simpa [vxor, zeros, List.replicate_succ] using ih

theorem vxor_self (u : Bits) : vxor u u = zeros u.length := by
  simp [vxor, zeros]

theorem vxor_vxor_cancel_right {u v : Bits} (h : u.length = v.length) : vxor (vxor u v) v = u := by
  rw [vxor_assoc, vxor_self, vxor_zeros h]

theorem vxor_map_range (n : Nat) (f g : Nat → Bool) :
    vxor ((List.range n).map f) ((List.range n).map g) = (List.range n).map (fun c => Bool.xor (f c) (g c)) := by
  simp [vxor, List.zipWith_map]

theorem dot2_append {u v : Bits} (h : u.length = v.length) (u' v' : Bits) :
    dot2 (u ++ u') (v ++ v') = Bool.xor (dot2 u v) (dot2 u' v') := by
  induction u generalizing v with
  | nil => cases v with
    | nil => simp
    | cons => cases h
  | cons a u ih => cases v with
    | nil => cases h
    | cons b v => simp [dot2_cons, ih (Nat.succ.inj h)]

/-- A vector times a scalar. -/
theorem dot2_map_and (b : Bool) (u v : Bits) : dot2 (u.map (b && ·)) v = (b && dot2 u v) := by
  induction u generalizing v with
  | nil => simp
  | cons a u ih => cases v with
    | nil => simp
    | cons x v => cases b <;> simp_all [dot2_cons]

/-- The dot product of two vectors given point by point is the parity of the points at which both are 1. -/
theorem dot2_map_range (n : Nat) (f g : Nat → Bool) : dot2 ((List.range n).map f) ((List.range n).map g) =
    ((List.range n).countP (fun c => f c && g c) % 2 == 1) := by
  simp [dot2, popcount, vand, List.zipWith_map, List.count_eq_countP, List.countP_map, Function.comp_def]

/-- A dot product of 1 needs a position where both vectors are 1. -/
theorem exists_getD_of_dot2 {u v : Bits} (h : dot2 u v = true) :
    ∃ c < u.length, u.getD c false = true ∧ v.getD c false = true := by
  have hmem : true ∈ vand u v := by
    by_contra hnot
    simp [dot2, popcount, List.count_eq_zero_of_not_mem hnot] at h
  obtain ⟨c, hc, hget⟩ := List.getElem_of_mem hmem
  have hand : (vand u v).getD c false = true := by rw [List.getD_eq_getElem _ _ hc, hget]
  rw [getD_vand, Bool.and_eq_true] at hand
  exact ⟨c, by rw [length_vand] at hc; omega, hand⟩

theorem dot2_zeros (u : Bits) (n : Nat) : dot2 u (zeros n) = false := by
  refine Bool.eq_false_iff.mpr fun h => ?_
  obtain ⟨c, -, -, hzero⟩ := exists_getD_of_dot2 h
  simp [zeros] at hzero

/-- Reading out one element of `w` by the indicator of its place. -/
theorem dot2_indicator {α : Type} [DecidableEq α] {xs : List α} {w : Bits} {x : α} {b : Bool} (hxs : xs.Nodup)
    (hx : (x, b) ∈ xs.zip w) : dot2 w (xs.map (fun y => decide (y = x))) = b := by
  induction xs generalizing w with
  | nil => simp at hx
  | cons y ys ih => cases w with
    | nil => simp at hx
    | cons a w =>
      obtain ⟨hy, hys⟩ := List.nodup_cons.mp hxs
      rw [List.map_cons, dot2_cons]
      rcases List.mem_cons.mp hx with heq | htail
      · obtain ⟨rfl, rfl⟩ := Prod.mk.inj heq
        have hzero : ys.map (fun y => decide (y = x)) = zeros ys.length := by
          rw [zeros, List.map_eq_replicate_iff]
          exact fun z hz => by simpa using ne_of_mem_of_not_mem hz hy
        rw [hzero, dot2_zeros]
        simp
      · have hne : y ≠ x := fun h => hy (h ▸ (List.of_mem_zip htail).1)
        simp [hne, ih hys htail]

end Sys2Proof.Proofs

/-! PROOFS. Points of the cube by the values of their variables (40_builder.md R105, R111): which cosets a point lies in, and
the parity of a monomial over a coset. -/

namespace Sys2Proof.Proofs

open Sys2Proof.Machine

theorem exists_point (m : Nat) (g : Nat → Bool) : ∃ c < 2 ^ m, ∀ i < m, variableBit m i c = g i := by
  refine ⟨Nat.ofBits fun j : Fin m => !g (m - 1 - j), Nat.ofBits_lt_two_pow _, fun i hi => ?_⟩
  rw [variableBit, Nat.testBit_ofBits_lt _ _ (by omega), Bool.not_not]
  congr 1
  show m - 1 - (m - 1 - i) = i
  omega

theorem point_ext {m c c' : Nat} (hc : c < 2 ^ m) (hc' : c' < 2 ^ m)
    (h : ∀ i < m, variableBit m i c = variableBit m i c') : c = c' := by
  refine Nat.eq_of_testBit_eq fun j => ?_
  by_cases hj : j < m
  · have hbit := h (m - 1 - j) (by omega)
    rwa [variableBit, variableBit, Bool.not_inj_iff, Nat.sub_sub_self (by omega)] at hbit
  · have hle : 2 ^ m ≤ 2 ^ j := Nat.pow_le_pow_right (by omega) (by omega)
    rw [Nat.testBit_lt_two_pow (hc.trans_le hle), Nat.testBit_lt_two_pow (hc'.trans_le hle)]

/-- Flipping variable `i` leaves every other variable. -/
theorem variableBit_xor_of_ne {m i i' : Nat} (hi : i < m) (hi' : i' < m) (h : i' ≠ i) (c : Nat) :
    variableBit m i' (c ^^^ 2 ^ (m - 1 - i)) = variableBit m i' c := by
  have hplace : m - 1 - i ≠ m - 1 - i' := by omega
  simp [variableBit, Nat.testBit_xor, hplace]

/-- A set of points closed under flipping one variable has an even number of them. -/
theorem countP_range_mod_two_of_flip {m i : Nat} (hi : i < m) {p : Nat → Bool}
    (hp : ∀ c, p (c ^^^ 2 ^ (m - 1 - i)) = p c) : (List.range (2 ^ m)).countP p % 2 = 0 := by
  have hflip : 2 ^ (m - 1 - i) < 2 ^ m := Nat.pow_lt_pow_right (by omega) (by omega)
  have hsum : ∑ c ∈ (Finset.range (2 ^ m)).filter (p · = true), (1 : ZMod 2) = 0 := by
    refine Finset.sum_involution (fun c _ => c ^^^ 2 ^ (m - 1 - i)) (fun _ _ => by decide) ?_ ?_ ?_
    · intro c _ _
      simp
    · intro c hc
      obtain ⟨hlt, hone⟩ := Finset.mem_filter.mp hc
      refine Finset.mem_filter.mpr ⟨Finset.mem_range.mpr (Nat.xor_lt_two_pow (Finset.mem_range.mp hlt) hflip), ?_⟩
      rwa [hp]
    · intro c _
      simp
  rw [Finset.sum_const, nsmul_one, ZMod.natCast_eq_zero_iff, ← Nat.count_eq_card_filter_range] at hsum
  exact Nat.mod_eq_zero_of_dvd (by simpa [Nat.count] using hsum)

/-! ## The cosets of a family -/

/-- A point lies in exactly the coset whose assignment is its own (R111). -/
theorem votingBit_eq_true_iff {m : Nat} {comp : List Nat} {a : Bits} (h : a.length = comp.length) (c : Nat) :
    votingBit m comp a c = true ↔ a = comp.map (fun i => variableBit m i c) := by
  induction comp generalizing a with
  | nil => simp [votingBit, List.length_eq_zero_iff.mp h]
  | cons i comp ih => cases a with
    | nil => cases h
    | cons b a =>
      rw [List.map_cons, List.cons.injEq, ← ih (Nat.succ.inj h), eq_comm (a := b)]
      simp [votingBit]

theorem nodup_assignments (len : Nat) : (assignments len).Nodup := by
  induction len with
  | zero => simp [assignments]
  | succ len ih =>
    refine List.nodup_append.mpr ⟨ih.map (List.cons_injective), ih.map (List.cons_injective), ?_⟩
    simp

theorem mem_complementOf {m i : Nat} {S : List Nat} : i ∈ complementOf m S ↔ i < m ∧ i ∉ S := by
  simp [complementOf]

theorem nodup_complementOf (m : Nat) (S : List Nat) : (complementOf m S).Nodup := List.nodup_range.filter _

/-- A monomial's variables and the others are all the variables. -/
theorem append_complementOf_perm {m : Nat} {S : List Nat} (hS : S.Nodup) (hlt : ∀ i ∈ S, i < m) :
    (S ++ complementOf m S).Perm (List.range m) := by
  have hdisj : S.Disjoint (complementOf m S) := fun i hi hc => (mem_complementOf.mp hc).2 hi
  refine (List.perm_ext_iff_of_nodup (hS.append (nodup_complementOf m S) hdisj) List.nodup_range).mpr fun i => ?_
  rw [List.mem_append, mem_complementOf, List.mem_range]
  constructor
  · rintro (hi | ⟨hi, -⟩)
    · exact hlt i hi
    · exact hi
  · intro hi
    by_cases hmem : i ∈ S
    · exact .inl hmem
    · exact .inr ⟨hi, hmem⟩

theorem length_complementOf {m : Nat} {S : List Nat} (hS : S.Nodup) (hlt : ∀ i ∈ S, i < m) :
    (complementOf m S).length = m - S.length := by
  have hlen := (append_complementOf_perm hS hlt).length_eq
  rw [List.length_append, List.length_range] at hlen
  omega

/-- Values for the elements of a list, one by one, as a function. -/
theorem exists_map_eq {xs : List Nat} (hxs : xs.Nodup) {a : Bits} (h : a.length = xs.length) :
    ∃ g : Nat → Bool, xs.map g = a :=
  ⟨fun i => a.getD (xs.idxOf i) false, List.ext_getElem (by simp [h]) fun k _ hk => by
    simp [hxs.idxOf_getElem, hk]⟩

/-- Each coset of a monomial's family has exactly one point at which the monomial is 1. -/
theorem exists_unique_point_in_coset {m : Nat} {S : List Nat} {a : Bits} (hlt : ∀ i ∈ S, i < m)
    (ha : a.length = (complementOf m S).length) : ∃ c₀ < 2 ^ m, ∀ c < 2 ^ m,
      (evalBit m S c && votingBit m (complementOf m S) a c) = true ↔ c = c₀ := by
  obtain ⟨g, rfl⟩ := exists_map_eq (nodup_complementOf m S) ha
  obtain ⟨c₀, hc₀, hbits⟩ := exists_point m (fun i => decide (i ∈ S) || g i)
  have hiff : ∀ c, (evalBit m S c && votingBit m (complementOf m S) ((complementOf m S).map g) c) = true ↔
      ∀ i < m, variableBit m i c = (decide (i ∈ S) || g i) := by
    intro c
    rw [Bool.and_eq_true, votingBit_eq_true_iff ha, evalBit, List.all_eq_true, List.map_inj_left]
    constructor
    · rintro ⟨hin, hout⟩ i hi
      by_cases hmem : i ∈ S
      · simp [hmem, hin i hmem]
      · simp [hmem, hout i (mem_complementOf.mpr ⟨hi, hmem⟩)]
    · intro h
      refine ⟨fun i hi => by simp [h i (hlt i hi), hi], fun i hi => ?_⟩
      obtain ⟨him, hmem⟩ := mem_complementOf.mp hi
      simp [h i him, hmem]
  refine ⟨c₀, hc₀, fun c hc => (hiff c).trans ⟨fun h => ?_, ?_⟩⟩
  · exact point_ext hc hc₀ fun i hi => (h i hi).trans (hbits i hi).symm
  · rintro rfl
    exact hbits

theorem evalBit_xor_of_notMem {m i : Nat} {T : List Nat} (hi : i < m) (hT : ∀ j ∈ T, j < m) (hiT : i ∉ T) (c : Nat) :
    evalBit m T (c ^^^ 2 ^ (m - 1 - i)) = evalBit m T c := by
  rw [Bool.eq_iff_iff, evalBit, evalBit, List.all_eq_true, List.all_eq_true]
  exact forall₂_congr fun j hj => by rw [variableBit_xor_of_ne hi (hT j hj) (ne_of_mem_of_not_mem hj hiT)]

/-- A coset runs freely over the monomial's own variables. -/
theorem votingBit_xor_of_mem {m i : Nat} {S : List Nat} {a : Bits} (hi : i < m) (hiS : i ∈ S)
    (ha : a.length = (complementOf m S).length) (c : Nat) :
    votingBit m (complementOf m S) a (c ^^^ 2 ^ (m - 1 - i)) = votingBit m (complementOf m S) a c := by
  have hmap : (complementOf m S).map (fun j => variableBit m j (c ^^^ 2 ^ (m - 1 - i))) =
      (complementOf m S).map (fun j => variableBit m j c) := by
    refine List.map_congr_left fun j hj => ?_
    obtain ⟨hjm, hjS⟩ := mem_complementOf.mp hj
    exact variableBit_xor_of_ne hi hjm (ne_of_mem_of_not_mem hiS hjS).symm c
  rw [Bool.eq_iff_iff, votingBit_eq_true_iff ha, votingBit_eq_true_iff ha, hmap]

/-- R162's reason: over a coset of the family of `S`, a monomial of no higher degree is even unless it is `S` itself, since it
misses a variable of `S`, which runs freely over the coset. -/
theorem dot2_evalVector_votingVector {m : Nat} {S T : List Nat} {a : Bits} (hS : S.Pairwise (· < ·))
    (hT : T.Pairwise (· < ·)) (hSm : ∀ i ∈ S, i < m) (hTm : ∀ i ∈ T, i < m) (hle : T.length ≤ S.length)
    (ha : a.length = (complementOf m S).length) :
    dot2 (evalVector m T) (votingVector m (complementOf m S) a) = decide (T = S) := by
  rw [evalVector, votingVector, blockLength, dot2_map_range]
  by_cases hTS : T = S
  · subst hTS
    obtain ⟨c₀, hc₀, hiff⟩ := exists_unique_point_in_coset hSm ha
    have hcount : (List.range (2 ^ m)).countP (fun c => evalBit m T c && votingBit m (complementOf m T) a c) =
        (List.range (2 ^ m)).count c₀ :=
      List.countP_congr fun c hc => by rw [hiff c (List.mem_range.mp hc), beq_iff_eq]
    rw [hcount, List.count_eq_one_of_mem List.nodup_range (List.mem_range.mpr hc₀)]
    simp
  · have hmiss : ∃ i ∈ S, i ∉ T := by
      by_contra! hsub
      have hperm : S.Perm T := (List.subperm_of_subset (hS.imp Nat.ne_of_lt) hsub).perm_of_length_le hle
      exact hTS (hperm.symm.eq_of_pairwise (fun _ _ _ _ h h' => absurd h h'.asymm) hT hS)
    obtain ⟨i, hiS, hiT⟩ := hmiss
    have hi : i < m := hSm i hiS
    have heval := evalBit_xor_of_notMem hi hTm hiT
    have hvote := votingBit_xor_of_mem hi hiS ha
    rw [countP_range_mod_two_of_flip hi fun c => by rw [heval, hvote]]
    simp [hTS]

end Sys2Proof.Proofs

/-! PROOFS. The votes of one row (42_decode.md R151 to R153): the strict majority, and how many votes an error can turn. -/

namespace Sys2Proof.Proofs

open Sys2Proof.Machine

theorem oneVotes_eq_countP (family : List Bits) (e : Bits) : oneVotes family e = family.countP (fun v => dot2 e v) :=
  List.countP_eq_length_filter.symm

/-- The other votes are the 0-votes. -/
theorem length_sub_oneVotes (family : List Bits) (e : Bits) :
    family.length - oneVotes family e = family.countP (fun v => !dot2 e v) := by
  rw [oneVotes_eq_countP, List.length_eq_countP_add_countP (fun v => dot2 e v), Nat.add_sub_cancel_left]
  simp

/-- Settles O50: the model compares the 1-votes with the rest of the family, which are the 0-votes. -/
theorem voteIsTheStrictMajority : Obligations.VoteIsTheStrictMajority := by
  unfold Obligations.VoteIsTheStrictMajority
  intro family e
  rw [voteOn, length_sub_oneVotes, oneVotes_eq_countP]
  split
  next htie => simp [htie]
  next hne =>
    rw [Option.some_inj, Option.some_inj, decide_eq_true_eq, decide_eq_false_iff_not]
    exact ⟨iff_of_false nofun hne, Iff.rfl, by omega⟩

/-- A row's vote is `b` when each of its votes is `b` except those an error turns, and the error turns fewer than half. -/
theorem voteOn_eq_some_of_few_turned {family : List Bits} {e err : Bits} {b : Bool}
    (hvotes : ∀ v ∈ family, dot2 e v = Bool.xor b (dot2 err v)) (hfew : 2 * oneVotes family err < family.length) :
    voteOn family e = some b := by
  obtain ⟨-, hone, hzero⟩ := voteIsTheStrictMajority family e
  have hsplit := length_sub_oneVotes family err
  rw [oneVotes_eq_countP] at hfew hsplit
  cases b with
  | true =>
    have h1 : family.countP (fun v => dot2 e v) = family.countP (fun v => !dot2 err v) :=
      List.countP_congr fun v hv => by simp [hvotes v hv]
    have h0 : family.countP (fun v => !dot2 e v) = family.countP (fun v => dot2 err v) :=
      List.countP_congr fun v hv => by simp [hvotes v hv]
    exact hone.mpr (by omega)
  | false =>
    have h1 : family.countP (fun v => dot2 e v) = family.countP (fun v => dot2 err v) :=
      List.countP_congr fun v hv => by simp [hvotes v hv]
    have h0 : family.countP (fun v => !dot2 e v) = family.countP (fun v => !dot2 err v) :=
      List.countP_congr fun v hv => by simp [hvotes v hv]
    exact hzero.mpr (by omega)

theorem mem_votingFamily {m : Nat} {S : List Nat} {v : Bits} : v ∈ votingFamily m S ↔
    ∃ a : Bits, a.length = (complementOf m S).length ∧ votingVector m (complementOf m S) a = v := by
  simp only [votingFamily, List.mem_map, mem_assignments]

theorem getD_votingVector {m c : Nat} (comp : List Nat) (a : Bits) (h : c < 2 ^ m) :
    (votingVector m comp a).getD c false = votingBit m comp a c := getD_map_range _ h

/-- Every error turns at most one vote of a family: that of the coset it lies in. -/
theorem oneVotes_votingFamily_le {m : Nat} (S : List Nat) {err : Bits} (h : err.length = 2 ^ m) :
    oneVotes (votingFamily m S) err ≤ popcount err := by
  have hsub : (assignments (complementOf m S).length).filter (fun a => dot2 err (votingVector m (complementOf m S) a)) ⊆
      ((List.range err.length).filter (fun c => err.getD c false)).map
        (fun c => (complementOf m S).map (fun i => variableBit m i c)) := by
    intro a ha
    obtain ⟨hlen, hdot⟩ := List.mem_filter.mp ha
    obtain ⟨c, hc, herr, hvote⟩ := exists_getD_of_dot2 hdot
    rw [getD_votingVector _ _ (h ▸ hc), votingBit_eq_true_iff (mem_assignments.mp hlen)] at hvote
    exact List.mem_map.mpr ⟨c, List.mem_filter.mpr ⟨List.mem_range.mpr hc, herr⟩, hvote.symm⟩
  have hle := (List.subperm_of_subset ((nodup_assignments _).filter _) hsub).length_le
  rw [List.length_map, ← popcount_eq_length_filter_range] at hle
  rwa [oneVotes, votingFamily, List.filter_map, List.length_map]

end Sys2Proof.Proofs

/-! PROOFS. Polynomials over GF(2) by their monomials and coefficients: the encoder as an evaluation (41_encode.md R140), its
parts by degree, and the rows of a degree in the stored tables (40_builder.md R109). -/

namespace Sys2Proof.Proofs

open Sys2Proof.Machine

/-- The vector of values of the polynomial with the coefficients `w` at the monomials `Ss`. -/
def polyVector (m : Nat) (Ss : List (List Nat)) (w : Bits) : Bits :=
  (List.range (2 ^ m)).map (fun c => dot2 w (Ss.map (fun S => evalBit m S c)))

@[simp] theorem length_polyVector (m : Nat) (Ss : List (List Nat)) (w : Bits) : (polyVector m Ss w).length = 2 ^ m := by
  simp [polyVector]

@[simp] theorem vote_buildTables (r m : Nat) : (buildTables r m).vote = (monomials r m).map (votingFamily m) := rfl

theorem columnOf_buildTables (r : Nat) {m c : Nat} (hc : c < 2 ^ m) :
    columnOf (buildTables r m) c = (monomials r m).map (fun S => evalBit m S c) := by
  rw [columnOf, gen_buildTables, generatorMatrix, List.map_map]
  exact List.map_congr_left fun S _ => getD_evalVector S hc

theorem encodeCore_buildTables (r m : Nat) (msg : Bits) :
    encodeCore (buildTables r m) (2 ^ m) msg = polyVector m (monomials r m) msg :=
  List.map_congr_left fun c hc => by rw [columnOf_buildTables r (List.mem_range.mp hc)]

theorem polyVector_append {m : Nat} {Ss : List (List Nat)} {w : Bits} (h : w.length = Ss.length) (Ss' : List (List Nat))
    (w' : Bits) : polyVector m (Ss ++ Ss') (w ++ w') = vxor (polyVector m Ss w) (polyVector m Ss' w') := by
  rw [polyVector, polyVector, polyVector, vxor_map_range]
  exact List.map_congr_left fun c _ => by rw [List.map_append, dot2_append (by simp [h])]

theorem polyVector_singleton (m : Nat) (S : List Nat) (b : Bool) :
    polyVector m [S] [b] = (evalVector m S).map (b && ·) := by
  rw [polyVector, evalVector, List.map_map]
  exact List.map_congr_left fun c _ => by simp [dot2_cons]

/-- The dot product of a polynomial's vector, monomial by monomial. -/
theorem dot2_polyVector {m : Nat} {Ss : List (List Nat)} {w : Bits} (h : w.length = Ss.length) (v : Bits) :
    dot2 (polyVector m Ss w) v = dot2 w (Ss.map (fun S => dot2 (evalVector m S) v)) := by
  induction Ss generalizing w with
  | nil =>
    obtain rfl := List.length_eq_zero_iff.mp h
    have hzero : polyVector m [] [] = zeros (2 ^ m) := map_range_eq_replicate fun _ _ => rfl
    rw [hzero, dot2_comm, dot2_zeros, List.map_nil, dot2_nil_right]
  | cons S Ss ih => cases w with
    | nil => cases h
    | cons b w =>
      rw [← List.singleton_append, ← List.singleton_append (l := w), polyVector_append rfl, polyVector_singleton,
        dot2_vxor_left _ _ _ (by simp [blockLength]), dot2_map_and, ih (Nat.succ.inj h)]
      simp [dot2_cons]

/-! ## The rows below a degree -/

/-- The monomials of the degrees below `d`. -/
def monomialsBelow (m d : Nat) : List (List Nat) := (List.range d).flatMap (subsets m)

theorem monomials_eq_monomialsBelow (r m : Nat) : monomials r m = monomialsBelow m (r + 1) := rfl

theorem monomialsBelow_succ (m d : Nat) : monomialsBelow m (d + 1) = monomialsBelow m d ++ subsets m d := by
  simp [monomialsBelow, List.range_succ]

theorem monomialsBelow_isPrefix (m : Nat) {d d' : Nat} (h : d ≤ d') : monomialsBelow m d <+: monomialsBelow m d' := by
  obtain ⟨k, rfl⟩ := Nat.exists_eq_add_of_le h
  rw [monomialsBelow, monomialsBelow, List.range_add, List.flatMap_append]
  exact ⟨_, rfl⟩

theorem upperBound_add_one {m d : Nat} (h : d ≤ m) : upperBound m d + 1 = (monomialsBelow m (d + 1)).length := by
  have hlen := length_monomials h
  have hpos : 0 < (monomials d m).length := by simp [monomials_eq_nil_cons]
  rw [← monomials_eq_monomialsBelow, hlen, upperBound, ← messageLength]
  omega

theorem lowerBound_eq_length {m d : Nat} (h : d ≤ m) : lowerBound m d = (monomialsBelow m d).length := by
  cases d with
  | zero => rfl
  | succ d => exact upperBound_add_one (Nat.le_of_succ_le h)

section Rows

variable {r m d : Nat}

theorem lowerOf_buildTables (hr : r < m) (hd : d ≤ r) : lowerOf (buildTables r m) d = (monomialsBelow m d).length := by
  rw [← lowerBound_eq_length (hd.trans hr.le)]
  simp [lowerOf, buildTables, Nat.lt_succ_of_le hd]

/-- The length of a degree's range of rows. -/
theorem upperOf_sub_lowerOf_buildTables (hr : r < m) (hd : d ≤ r) :
    upperOf (buildTables r m) d + 1 - lowerOf (buildTables r m) d = (subsets m d).length := by
  have hup : upperOf (buildTables r m) d = upperBound m d := by simp [upperOf, buildTables, Nat.lt_succ_of_le hd]
  rw [lowerOf_buildTables hr hd, hup, upperBound_add_one (hd.trans hr.le), monomialsBelow_succ, List.length_append,
    Nat.add_sub_cancel_left]

/-- The rows of a degree hold its monomials. -/
theorem take_drop_monomials (hd : d ≤ r) :
    ((monomials r m).drop (monomialsBelow m d).length).take (subsets m d).length = subsets m d := by
  obtain ⟨rest, hrest⟩ := monomialsBelow_isPrefix m (Nat.succ_le_succ hd)
  rw [monomials_eq_monomialsBelow, ← hrest, monomialsBelow_succ, List.append_assoc, List.drop_left, List.take_left]

theorem slice_columnOf_buildTables (hr : r < m) (hd : d ≤ r) {c : Nat} (hc : c < 2 ^ m) :
    slice (columnOf (buildTables r m) c) (lowerOf (buildTables r m) d) (upperOf (buildTables r m) d) =
      (subsets m d).map (fun S => evalBit m S c) := by
  rw [slice, upperOf_sub_lowerOf_buildTables hr hd, lowerOf_buildTables hr hd, columnOf_buildTables r hc, ← List.map_drop,
    ← List.map_take, take_drop_monomials hd]

/-- R154's second form: the peel-off adds the degree's part of the codeword. -/
theorem peelOff_buildTables (hr : r < m) (hd : d ≤ r) (w e : Bits) :
    peelOff (buildTables r m) (2 ^ m) d w e = vxor e (polyVector m (subsets m d) w) := by
  rw [peelOff, polyVector]
  congr 1
  exact List.map_congr_left fun c hc => by rw [slice_columnOf_buildTables hr hd (List.mem_range.mp hc)]

/-- Reading a range of rows of a table one by one. -/
theorem map_getD_range' {α : Type} {l : List α} {lo len : Nat} (h : lo + len ≤ l.length) (x : α) :
    (List.range' lo len).map (fun i => l.getD i x) = (l.drop lo).take len := by
  refine List.ext_getElem (by simp; omega) fun k hk _ => ?_
  have hlt : lo + k < l.length := by simp at hk; omega
  simp [hlt]

/-- The voting families a degree's rows read from the table. -/
theorem map_vote_rowsOf_buildTables (hr : r < m) (hd : d ≤ r) :
    (rowsOf (buildTables r m) d).map (fun pos => (buildTables r m).vote.getD pos []) =
      (subsets m d).map (votingFamily m) := by
  have hle : (monomialsBelow m d).length + (subsets m d).length ≤ ((monomials r m).map (votingFamily m)).length := by
    rw [List.length_map, ← List.length_append, ← monomialsBelow_succ]
    exact (monomialsBelow_isPrefix m (Nat.succ_le_succ hd)).length_le
  rw [rowsOf, upperOf_sub_lowerOf_buildTables hr hd, lowerOf_buildTables hr hd, vote_buildTables, map_getD_range' hle,
    ← List.map_drop, ← List.map_take, take_drop_monomials hd]

end Rows

end Sys2Proof.Proofs

/-! PROOFS. The decoder (42_decode.md R150 to R159): by degrees from the highest, each row decided by its votes and each degree
peeled off, up to `t` errors. -/

namespace Sys2Proof.Proofs

open Sys2Proof.Machine

theorem decideRows_eq_some_iff {t : Tables} {e : Bits} {rows : List Nat} {w : Bits} : decideRows t e rows = some w ↔
    List.Forall₂ (fun pos b => voteOn (t.vote.getD pos []) e = some b) rows w := by
  induction rows generalizing w with
  | nil => simp [decideRows, eq_comm]
  | cons pos rest ih =>
    simp only [List.forall₂_cons_left_iff, ← ih]
    rw [decideRows]
    cases voteOn (t.vote.getD pos []) e with
    | none => simp
    | some b =>
      cases decideRows t e rest with
      | none => simp
      | some w' => simp [eq_comm]

section Correction

variable {r m d : Nat}

/-- The rows of degree `d` are decided as `w` when each family of the degree votes for its coefficient. -/
theorem decideRows_rowsOf_buildTables (hr : r < m) (hd : d ≤ r) {e w : Bits} :
    decideRows (buildTables r m) e (rowsOf (buildTables r m) d) = some w ↔
      List.Forall₂ (fun S b => voteOn (votingFamily m S) e = some b) (subsets m d) w := by
  rw [decideRows_eq_some_iff, ← List.forall₂_map_left_iff (R := fun family b => voteOn family e = some b),
    map_vote_rowsOf_buildTables hr hd, List.forall₂_map_left_iff]

/-- Half a family of a degree the decoder reaches has more than `t` vectors. -/
theorem two_mul_strength_lt (hr : r < m) (hd : d ≤ r) : 2 * strength r m < 2 ^ (m - d) := by
  have hhalf : 2 ^ (m - r) = 2 * 2 ^ (m - r - 1) := by
    rw [← Nat.pow_succ', Nat.succ_eq_add_one, Nat.sub_add_cancel (by omega)]
  have hmono : 2 ^ (m - r) ≤ 2 ^ (m - d) := Nat.pow_le_pow_right (by omega) (by omega)
  have hpos : 0 < 2 ^ (m - r - 1) := Nat.two_pow_pos _
  rw [strength]
  omega

/-- R162's reason, for a whole row: on a codeword of degree at most `d` each vote of a row of degree `d` is its coefficient. -/
theorem dot2_polyVector_of_mem_votingFamily {S : List Nat} {b : Bool} {w v : Bits} (hS : S ∈ subsets m d)
    (hw : w.length = (monomials d m).length) (hb : (S, b) ∈ (monomials d m).zip w) (hv : v ∈ votingFamily m S) :
    dot2 (polyVector m (monomials d m) w) v = b := by
  obtain ⟨a, ha, rfl⟩ := mem_votingFamily.mp hv
  obtain ⟨hinc, hlt, rfl⟩ := mem_subsets.mp hS
  have hparity : (monomials S.length m).map (fun T => dot2 (evalVector m T) (votingVector m (complementOf m S) a)) =
      (monomials S.length m).map (fun T => decide (T = S)) := by
    refine List.map_congr_left fun T hT => ?_
    obtain ⟨hTinc, hTlt, hTle⟩ := mem_monomials.mp hT
    exact dot2_evalVector_votingVector hinc hTinc hlt hTlt hTle ha
  rw [dot2_polyVector hw, hparity, dot2_indicator (nodup_monomials _ m) hb]

variable {err : Bits} (hr : r < m) (herr : err.length = 2 ^ m) (hweight : popcount err ≤ strength r m)
include hr herr hweight

/-- With at most `t` errors, a row of degree `d` is decided as its coefficient once the degrees above `d` are peeled off. -/
theorem voteOn_votingFamily (hd : d ≤ r) {S : List Nat} {b : Bool} {w : Bits} (hS : S ∈ subsets m d)
    (hw : w.length = (monomials d m).length) (hb : (S, b) ∈ (monomials d m).zip w) :
    voteOn (votingFamily m S) (vxor (polyVector m (monomials d m) w) err) = some b := by
  obtain ⟨hinc, hlt, hlen⟩ := mem_subsets.mp hS
  refine voteOn_eq_some_of_few_turned (err := err) (fun v hv => ?_) ?_
  · rw [dot2_vxor_left _ _ _ (by rw [length_polyVector, herr]), dot2_polyVector_of_mem_votingFamily hS hw hb hv]
  · calc 2 * oneVotes (votingFamily m S) err ≤ 2 * strength r m :=
          Nat.mul_le_mul_left 2 ((oneVotes_votingFamily_le S herr).trans hweight)
      _ < 2 ^ (m - d) := two_mul_strength_lt hr hd
      _ = (votingFamily m S).length := by
        rw [length_votingFamily, length_complementOf (hinc.imp Nat.ne_of_lt) hlt, hlen]

/-- The decoder's loop: from a codeword of degree below `d` with at most `t` errors it gives the coefficients back. -/
theorem decodeBelow_polyVector (hd : d ≤ r + 1) {w : Bits} (hw : w.length = (monomialsBelow m d).length) :
    decodeBelow (buildTables r m) (2 ^ m) d (vxor (polyVector m (monomialsBelow m d) w) err) = some w := by
  induction d generalizing w with
  | zero =>
    obtain rfl := List.length_eq_zero_iff.mp hw
    rfl
  | succ d ih =>
    have hdr : d ≤ r := Nat.le_of_succ_le_succ hd
    rw [monomialsBelow_succ, List.length_append] at hw
    obtain ⟨low, top, rfl, hlow, htop⟩ : ∃ low top : Bits,
        w = low ++ top ∧ low.length = (monomialsBelow m d).length ∧ top.length = (subsets m d).length :=
      ⟨w.take (monomialsBelow m d).length, w.drop (monomialsBelow m d).length, (List.take_append_drop ..).symm,
        by simp [hw], by simp [hw]⟩
    have hrows : decideRows (buildTables r m) (vxor (polyVector m (monomialsBelow m (d + 1)) (low ++ top)) err)
        (rowsOf (buildTables r m) d) = some top := by
      refine (decideRows_rowsOf_buildTables hr hdr).mpr (List.forall₂_iff_zip.mpr ⟨htop.symm, fun {S b} hb => ?_⟩)
      refine voteOn_votingFamily hr herr hweight hdr (List.of_mem_zip hb).1 ?_ ?_
      · rw [monomials_eq_monomialsBelow, monomialsBelow_succ, List.length_append, List.length_append, hlow, htop]
      · rw [monomials_eq_monomialsBelow, monomialsBelow_succ, List.zip_append hlow.symm]
        exact List.mem_append_right _ hb
    have hpeel : peelOff (buildTables r m) (2 ^ m) d top
        (vxor (polyVector m (monomialsBelow m (d + 1)) (low ++ top)) err) =
          vxor (polyVector m (monomialsBelow m d) low) err := by
      rw [peelOff_buildTables hr hdr, monomialsBelow_succ, polyVector_append hlow, vxor_right_comm,
        vxor_vxor_cancel_right (by simp)]
    rw [decodeBelow, hrows]
    simp only [hpeel, ih (Nat.le_of_succ_le hd) hlow]

end Correction

/-- Settles O53: the decoder's loop from degree `r`, by induction on the degree. -/
theorem upToStrengthErrorsAreCorrected : Obligations.UpToStrengthErrorsAreCorrected := by
  unfold Obligations.UpToStrengthErrorsAreCorrected
  intro r m msg err hr hmsg herr hweight
  have hlen : msg.length = (monomialsBelow m (r + 1)).length := hmsg.trans (length_monomials hr.le).symm
  rw [decodeCore, encodeCore_buildTables, monomials_eq_monomialsBelow,
    decodeBelow_polyVector hr herr hweight le_rfl hlen]

/-- Settles O52: the case of O53 with no error. -/
theorem decodeOfEncodedMessageIsTheMessage : Obligations.DecodeOfEncodedMessageIsTheMessage := by
  unfold Obligations.DecodeOfEncodedMessageIsTheMessage
  intro r m msg hr hmsg
  have hnone : popcount (zeros (2 ^ m)) ≤ strength r m := by simp [popcount, zeros, List.count_replicate]
  have hdec := upToStrengthErrorsAreCorrected r m msg (zeros (2 ^ m)) hr hmsg (length_zeros _) hnone
  rwa [vxor_zeros (length_encodeCore ..)] at hdec

end Sys2Proof.Proofs

/-! PROOFS. The outcomes with no output (60_exceptions.md R182 to R186): when a command takes each of them, and what it leaves.
First K and N, the registers IN_LEN is compared with (10_state.md R24, R25). -/

namespace Sys2Proof.Proofs

open Sys2Proof.Machine

/-! ## The length registers -/

/-- `k ≥ 1` always (R142, corner cases): the empty monomial is a row of every code. -/
theorem messageLength_pos {r m : Nat} (h : r ≤ m) : 0 < messageLength r m := by
  rw [← length_monomials h, monomials_eq_nil_cons]
  exact Nat.zero_lt_succ _

/-- R119: `k ≤ n`, because the monomials of every degree number `2^m`. -/
theorem messageLength_le_blockLength {r m : Nat} (h : r ≤ m) : messageLength r m ≤ blockLength m := by
  calc messageLength r m = ∑ i ∈ Finset.range (r + 1), m.choose i := messageLength_eq_sum_choose h
    _ ≤ ∑ i ∈ Finset.range (m + 1), m.choose i :=
      Finset.sum_le_sum_of_subset (Finset.range_mono (Nat.succ_le_succ h))
    _ = blockLength m := Nat.sum_range_choose m

section LengthRegisters

variable {s : State} (hcfg : s.CfgLegal) (hvalid : s.cfg.valid = true)

include hcfg hvalid

theorem codeLen_lt : s.codeLen < 2 ^ 32 := by
  obtain ⟨-, hvars⟩ := hcfg.1 hvalid
  exact Nat.pow_lt_pow_right (by decide) (Nat.lt_succ_of_le (hvars.trans s.cap.le))

theorem order_le_vars : s.order ≤ s.vars := (hcfg.1 hvalid).1.le

/-- R24: N is not truncated. -/
theorem toNat_nReg : s.nReg.toNat = s.codeLen := by
  rw [State.nReg, if_pos hvalid, BitVec.toNat_ofNat, Nat.mod_eq_of_lt (codeLen_lt hcfg hvalid)]

/-- R25: K is not truncated. -/
theorem toNat_kReg : s.kReg.toNat = s.msgLen := by
  have hle : s.msgLen ≤ s.codeLen := messageLength_le_blockLength (order_le_vars hcfg hvalid)
  rw [State.kReg, if_pos hvalid, BitVec.toNat_ofNat, Nat.mod_eq_of_lt (hle.trans_lt (codeLen_lt hcfg hvalid))]

theorem kReg_ne_zero : s.kReg ≠ 0#32 := by
  intro hzero
  have hpos : 0 < s.msgLen := messageLength_pos (order_le_vars hcfg hvalid)
  rw [← toNat_kReg hcfg hvalid, hzero] at hpos
  exact absurd hpos (by decide)

/-- `IN_LEN = K` as ENCODE tests it, on exact naturals. -/
theorem inLen_toNat_eq_msgLen_iff : s.inLen.toNat = s.msgLen ↔ s.inLen = s.kReg := by
  rw [← toNat_kReg hcfg hvalid, BitVec.toNat_inj]

/-- `IN_LEN = N` as DECODE tests it, on exact naturals. -/
theorem inLen_toNat_eq_codeLen_iff : s.inLen.toNat = s.codeLen ↔ s.inLen = s.nReg := by
  rw [← toNat_nReg hcfg hvalid, BitVec.toNat_inj]

end LengthRegisters

/-! ## When a command has no output -/

section Outcomes

variable {s : State}

/-- R185 for ENCODE. -/
theorem exec_encode_of_not_valid (h : s.cfg.valid = false) : exec .encode s = .next (failClearing .notConstructed s) :=
  if_pos h

/-- R185 for DECODE. -/
theorem exec_decode_of_not_valid (h : s.cfg.valid = false) : exec .decode s = .next (failClearing .notConstructed s) :=
  if_pos h

/-- R183 for ENCODE. -/
theorem exec_encode_of_length_ne (hvalid : s.cfg.valid = true) (hlen : s.inLen.toNat ≠ s.msgLen) :
    exec .encode s = .next (failClearing .lengthError s) :=
  (if_neg (by simp [hvalid])).trans (if_pos hlen)

/-- R183 for DECODE. -/
theorem exec_decode_of_length_ne (hvalid : s.cfg.valid = true) (hlen : s.inLen.toNat ≠ s.codeLen) :
    exec .decode s = .next (failClearing .lengthError s) :=
  (if_neg (by simp [hvalid])).trans (if_pos hlen)

/-- DECODE past its checks reports what DecodeCore gives (R157). -/
theorem exec_decode_of_length_eq (hvalid : s.cfg.valid = true) (hlen : s.inLen.toNat = s.codeLen) : exec .decode s =
    .next (reportDecoded (decodeCore s.tables s.order s.codeLen (s.inputVec s.codeLen)) s) :=
  (if_neg (by simp [hvalid])).trans (if_neg (not_not_intro hlen))

/-- R184. -/
theorem exec_decode_of_ambiguous (hvalid : s.cfg.valid = true) (hlen : s.inLen.toNat = s.codeLen)
    (hcore : decodeCore s.tables s.order s.codeLen (s.inputVec s.codeLen) = .ambiguous) :
    exec .decode s = .next (failClearing .ambiguous s) := by
  rw [exec_decode_of_length_eq hvalid hlen, hcore]
  rfl

/-- The completion step of a legal word. -/
theorem completionStep_of_decodeCommand_eq_ok {i : Instr} (h : decodeCommand s.latch = .ok i) :
    completionStep s = exec i s := by
  rw [completionStep, h]

/-- R186: the decoder refuses every illegal word. -/
theorem completionStep_of_not_legalWord (h : legalWord s.latch = false) : completionStep s = .next (rejectIllegal s) := by
  cases hd : decodeCommand s.latch with
  | error e => rw [completionStep, hd]
  | ok i =>
    have hlegal : legalWord s.latch = true := (exists_decodeCommand_eq_ok_iff s.latch).mp ⟨i, hd⟩
    rw [h] at hlegal
    contradiction

/-- R182, as CONSTRUCT tests it. -/
theorem exec_construct_of_not_paramsOk {r m : Nat} (h : m ≤ r ∨ s.cap.mMax < m) :
    exec (.construct r m) s = .next (finish .paramError s) :=
  if_neg (by simp only [paramsOk, Bool.and_eq_true, decide_eq_true_eq]; omega)

end Outcomes

/-- What R183 to R185 have in common: only RESULT, BUSY and the output change, and the output is cleared. -/
theorem clearedWith_failClearing (code : Result) (s : State) : ClearedWith code s (failClearing code s) :=
  ⟨rfl, bit_cleared s.cap⟩

/-! ## The statements -/

/-- Settles O15: DecodeCore on the stored tables, which are those of CFG. -/
theorem ambiguousDecodeClearsTheOutput : Obligations.AmbiguousDecodeClearsTheOutput := by
  unfold Obligations.AmbiguousDecodeClearsTheOutput
  intro s hcfg htables hvalid hlen hamb
  have htab : s.tables = buildTables s.order s.vars := htables.trans (if_pos hvalid)
  have hcore : decodeCore s.tables s.order s.codeLen (s.inputVec s.codeLen) = .ambiguous := by
    rw [toNat_nReg hcfg hvalid, ← htab] at hamb
    exact hamb
  have hlen' : s.inLen.toNat = s.codeLen := (inLen_toNat_eq_codeLen_iff hcfg hvalid).mpr hlen
  have hword : (failClearing .ambiguous s).status.word = 4#32 := by
    rw [failClearing_status]
    decide
  exact ⟨_, exec_decode_of_ambiguous hvalid hlen' hcore, clearedWith_failClearing _ s, hword, kReg_ne_zero hcfg hvalid⟩

/-- Settles O16: K and N of a legal CFG are not truncated, so comparing the registers is comparing the lengths. -/
theorem lengthMismatchClearsTheOutput : Obligations.LengthMismatchClearsTheOutput := by
  unfold Obligations.LengthMismatchClearsTheOutput
  intro s hcfg hvalid
  constructor
  · intro hne
    have hlen := mt (inLen_toNat_eq_msgLen_iff hcfg hvalid).mp hne
    exact ⟨_, exec_encode_of_length_ne hvalid hlen, clearedWith_failClearing _ s⟩
  · intro hne
    have hlen := mt (inLen_toNat_eq_codeLen_iff hcfg hvalid).mp hne
    exact ⟨_, exec_decode_of_length_ne hvalid hlen, clearedWith_failClearing _ s⟩

/-- Settles O5: an illegal word is rejected, and the rejection is `finish`. -/
theorem illegalWordChangesOnlyTheResult : Obligations.IllegalWordChangesOnlyTheResult := by
  unfold Obligations.IllegalWordChangesOnlyTheResult
  intro s hillegal
  exact completionStep_of_not_legalWord hillegal

/-- Settles O12: the masked word decodes to CONSTRUCT of its two fields, which ParamsOK refuses. -/
theorem parameterErrorChangesOnlyTheResult : Obligations.ParameterErrorChangesOnlyTheResult := by
  unfold Obligations.ParameterErrorChangesOnlyTheResult
  intro s hmask hparams
  rw [← rvField_toNat, ← mvField_toNat] at hparams
  have hdecode := (decodeCommand_eq_construct_iff s.latch).mpr ((constructMask_eq_iff s.latch).mp hmask)
  calc completionStep s = exec (.construct (rvField s.latch).toNat (mvField s.latch).toNat) s :=
        completionStep_of_decodeCommand_eq_ok hdecode
    _ = .next (finish .paramError s) := exec_construct_of_not_paramsOk hparams

/-- Settles O17: both commands test VALID first. -/
theorem withoutAnInstanceTheOutputIsCleared : Obligations.WithoutAnInstanceTheOutputIsCleared := by
  unfold Obligations.WithoutAnInstanceTheOutputIsCleared
  intro s hinvalid
  exact ⟨⟨_, exec_encode_of_not_valid hinvalid, clearedWith_failClearing _ s⟩,
    ⟨_, exec_decode_of_not_valid hinvalid, clearedWith_failClearing _ s⟩⟩

end Sys2Proof.Proofs

/-! PROOFS. Encoding and decoding are inverse (30_encoding.md R70 to R77), and how a decoded instruction comes to run
(R76; 70_reset_and_hazards.md R203). -/

namespace Sys2Proof.Proofs

open Sys2Proof.Machine

/-! ## The words of CONSTRUCT -/

theorem wellFormed_construct_iff (r m : Nat) : (Instr.construct r m).WellFormed ↔ r ≤ 255 ∧ m ≤ 255 := by
  simp [Instr.WellFormed, Instr.wellFormed]

/-- R77's formula: the fields do not overlap, so the disjunction is a sum. -/
theorem toNat_encode_construct {r m : Nat} (hr : r ≤ 255) (hm : m ≤ 255) :
    (encode (.construct r m)).toNat = 2 ^ 16 * m + 2 ^ 8 * r + 1 := by
  have hlow : r <<< 8 + 1 = r <<< 8 ||| 1 := Nat.shiftLeft_add_eq_or_of_lt (by decide) r
  have hlt : r <<< 8 + 1 < 2 ^ 16 := by rw [Nat.shiftLeft_eq]; omega
  rw [← constructValue_eq_encode hr hm, constructValue, Nat.or_assoc, ← hlow, ← Nat.shiftLeft_add_eq_or_of_lt hlt,
    Nat.shiftLeft_eq, Nat.shiftLeft_eq]
  omega

theorem opField_toNat (v : Word) : (opField v).toNat = v.toNat % 2 ^ 8 := by
  rw [opField, BitVec.extractLsb'_toNat, Nat.shiftRight_zero]

theorem rsvField_toNat (v : Word) : (rsvField v).toNat = v.toNat / 2 ^ 24 := by
  rw [rsvField, BitVec.extractLsb'_toNat, Nat.shiftRight_eq_div_pow]
  omega

theorem decodeCommand_encode_construct {r m : Nat} (hr : r ≤ 255) (hm : m ≤ 255) :
    decodeCommand (encode (.construct r m)) = .ok (.construct r m) := by
  have hword := toNat_encode_construct hr hm
  have hrv : (rvField (encode (.construct r m))).toNat = r := by rw [rvField_toNat, hword]; omega
  have hmv : (mvField (encode (.construct r m))).toNat = m := by rw [mvField_toNat, hword]; omega
  refine (decodeCommand_eq_ok_iff _ _).mpr (.inl ⟨Laws.EncodedForm.opField_construct r m,
    Laws.EncodedForm.rsvField_construct hr hm, ?_⟩)
  rw [hrv, hmv]

/-- A word with the opcode of CONSTRUCT and a zero `RSV` is the encoding of its operand fields. -/
theorem encode_construct_fields {v : Word} (hop : opField v = 0x01#8) (hrsv : rsvField v = 0#8) :
    encode (.construct (rvField v).toNat (mvField v).toNat) = v := by
  have h1 := opField_toNat v
  have h4 := rsvField_toNat v
  rw [hop] at h1
  rw [hrsv] at h4
  rw [← BitVec.toNat_inj, toNat_encode_construct (by omega) (by omega), rvField_toNat, mvField_toNat]
  simp only [BitVec.toNat_ofNat] at h1 h4
  omega

/-- A plain command's word is its opcode alone. -/
theorem eq_of_plain {v : Word} {op : Byte} (hop : opField v = op) (hrest : v.extractLsb' 8 24 = 0#24) : v = 0#24 ++ op := by
  rw [← append_opField v, hop, hrest]

/-! ## Accessor addresses -/

theorem decodeRead_eq_some_iff (a : Word) (i : Instr) : decodeRead a = some i ↔ i.isCommand = false ∧ a = encode i := by
  unfold decodeRead
  split
  next h => subst h; cases i <;> simp [Instr.isCommand, encode]
  next h1 =>
    split
    next h => subst h; cases i <;> simp [Instr.isCommand, encode]
    next h2 =>
      split
      next h => subst h; cases i <;> simp [Instr.isCommand, encode]
      next h3 => cases i <;> simp [Instr.isCommand, encode, h1, h2, h3]

/-- No address of R76 has a command's opcode. -/
theorem decodeRead_of_decodeCommand {v : Word} {i : Instr} (h : decodeCommand v = .ok i) : decodeRead v = none := by
  refine Option.eq_none_iff_forall_ne_some.mpr fun j hj => ?_
  obtain ⟨hacc, rfl⟩ := (decodeRead_eq_some_iff v j).mp hj
  cases j with
  | construct r m => cases hacc
  | encode => cases hacc
  | decode => cases hacc
  | blockLength => cases h
  | messageLength => cases h
  | strength => cases h

theorem decodeTableWord_toNat (v : Word) :
    decodeTableWord 32 v.toNat = (decodeRead v).or (decodeCommand v).toOption := by
  have hword : tableWord 32 v.toNat = some v := by
    rw [tableWord, if_pos le_rfl, Nat.mod_eq_of_lt v.isLt, BitVec.ofNat_toNat, BitVec.setWidth_eq]
  rw [decodeTableWord, hword]
  cases h : decodeRead v <;> simp [h]

theorem decodeTableWord_of_decodeCommand {v : Word} {i : Instr} (h : decodeCommand v = .ok i) :
    decodeTableWord 32 v.toNat = some i := by
  rw [decodeTableWord_toNat, decodeRead_of_decodeCommand h, h]
  rfl

theorem decodeTableWord_of_decodeRead {v : Word} {i : Instr} (h : decodeRead v = some i) :
    decodeTableWord 32 v.toNat = some i := by
  rw [decodeTableWord_toNat, h]
  rfl

/-! ## The statements on words -/

/-- Settles O7: a command's word decodes by its fields, an accessor's by its address. -/
theorem decodeOfEncodeIsTheInstruction : Obligations.DecodeOfEncodeIsTheInstruction := by
  unfold Obligations.DecodeOfEncodeIsTheInstruction
  intro i hwf
  cases i with
  | construct r m =>
    obtain ⟨hr, hm⟩ := (wellFormed_construct_iff r m).mp hwf
    exact decodeTableWord_of_decodeCommand (decodeCommand_encode_construct hr hm)
  | encode => exact decodeTableWord_of_decodeCommand rfl
  | decode => exact decodeTableWord_of_decodeCommand rfl
  | blockLength => exact decodeTableWord_of_decodeRead rfl
  | messageLength => exact decodeTableWord_of_decodeRead rfl
  | strength => exact decodeTableWord_of_decodeRead rfl

/-- Settles O8: in each of the decoder's three cases the fields determine the word. -/
theorem encodeOfDecodedCommandIsTheWord : Obligations.EncodeOfDecodedCommandIsTheWord := by
  unfold Obligations.EncodeOfDecodedCommandIsTheWord
  intro v i hdec
  rcases (decodeCommand_eq_ok_iff v i).mp hdec with ⟨hop, hrsv, rfl⟩ | ⟨hop, hrest, rfl⟩ | ⟨hop, hrest, rfl⟩
  · exact ⟨(wellFormed_construct_iff _ _).mpr ⟨by omega, by omega⟩, rfl, encode_construct_fields hop hrsv⟩
  · exact ⟨rfl, rfl, (eq_of_plain hop hrest).symm⟩
  · exact ⟨rfl, rfl, (eq_of_plain hop hrest).symm⟩

/-- Settles O9: twelve listed words, each by computation. -/
theorem decoderReadsTheListedWords : Obligations.DecoderReadsTheListedWords := by
  unfold Obligations.DecoderReadsTheListedWords
  decide

/-- Settles O10: CONSTRUCT by R77's formula, its refusal by the operand ranges. -/
theorem assemblerGivesTheCommandWords : Obligations.AssemblerGivesTheCommandWords := by
  unfold Obligations.AssemblerGivesTheCommandWords
  refine ⟨fun r m hr hm => ?_, fun r m hlarge => ?_, rfl, rfl⟩
  · have hwf : (Instr.construct r m).wellFormed = true := (wellFormed_construct_iff r m).mpr ⟨hr, hm⟩
    exact ⟨encode (.construct r m), by simp [assemble, Instr.isCommand, hwf], toNat_encode_construct hr hm⟩
  · have hwf : ¬ (Instr.construct r m).wellFormed = true := mt (wellFormed_construct_iff r m).mp (by omega)
    simp [assemble, hwf]

/-! ## The statements on a step -/

/-- The sequencer's turn, whether it stands in the list of inputs or the list has run out. -/
theorem step_of_sequencerNext {s : State} {rest : List Input} (h : s.SequencerNext rest) :
    step s = sequencerTurn { s with inputs := rest } := by
  rcases h with hcons | ⟨hnil, rfl⟩
  · exact step_cons hcons
  · rw [step_nil hnil, ← hnil]

/-- Settles O1: the sequencer's turn while busy is the completion step, which runs what the word decodes to. -/
theorem sequencerStepRunsTheDecodedCommand : Obligations.SequencerStepRunsTheDecodedCommand := by
  unfold Obligations.SequencerStepRunsTheDecodedCommand
  intro s rest hnext hbusy
  have hstep : step s = completionStep { s with inputs := rest } :=
    (step_of_sequencerNext hnext).trans (if_pos hbusy)
  exact ⟨hstep, fun i hdec => hstep.trans (completionStep_of_decodeCommand_eq_ok (s := { s with inputs := rest }) hdec)⟩

/-- Settles O2: the sequencer's turn while not busy. -/
theorem sequencerIsIdleWhileNotBusy : Obligations.SequencerIsIdleWhileNotBusy := by
  unfold Obligations.SequencerIsIdleWhileNotBusy
  intro s rest hnext hidle
  exact (step_of_sequencerNext hnext).trans (if_neg (by simp [hidle]))

theorem admissible_of_decodeRead {a : Word} {i : Instr} (h : decodeRead a = some i) : admissible a 4 = true := by
  obtain ⟨hacc, rfl⟩ := (decodeRead_eq_some_iff a i).mp h
  cases i with
  | construct r m => cases hacc
  | encode => cases hacc
  | decode => cases hacc
  | blockLength => rfl
  | messageLength => rfl
  | strength => rfl

theorem hostAccess_read_of_decodeRead {a : Word} {i : Instr} (h : decodeRead a = some i) (s : State) :
    hostAccess (.read a 4) s = exec i s := by
  simp [hostAccess, admissible_of_decodeRead h, h]

/-- Settles O3: the host access reads the accessor off the address. -/
theorem hostReadOfAnAccessorAddressRunsTheAccessor : Obligations.HostReadOfAnAccessorAddressRunsTheAccessor := by
  unfold Obligations.HostReadOfAnAccessorAddressRunsTheAccessor
  intro s rest a i hin hread
  exact (step_cons hin).trans (hostAccess_read_of_decodeRead hread _)

/-- What a table word stands for, on the word it is placed as. -/
theorem decodeTableWord_cases {nbits w : Nat} {i : Instr} (h : decodeTableWord nbits w = some i) :
    decodeRead (BitVec.ofNat 32 (w % 2 ^ nbits)) = some i ∨
    (decodeRead (BitVec.ofNat 32 (w % 2 ^ nbits)) = none ∧ decodeCommand (BitVec.ofNat 32 (w % 2 ^ nbits)) = .ok i) := by
  unfold decodeTableWord tableWord at h
  split at h
  next => cases h
  next v hv =>
    obtain ⟨-, hword⟩ := Option.ite_none_right_eq_some.mp hv
    rw [Option.some.inj hword]
    split at h
    next hread => exact .inl (hread.trans h)
    next hnone =>
      cases hcmd : decodeCommand v with
      | error e => simp [hcmd, Except.toOption] at h
      | ok j => simp_all [Except.toOption]

/-- Settles O4: an accessor's address is read next, a command word is latched and the sequencer moves next. -/
theorem placedTableWordIsTheNextInstruction : Obligations.PlacedTableWordIsTheNextInstruction := by
  unfold Obligations.PlacedTableWordIsTheNextInstruction
  intro s nbits w i htable
  rcases decodeTableWord_cases htable with hread | ⟨hnone, hcmd⟩
  · have hplace : s.withFetchWord nbits w =
        { s with inputs := .access (.read (BitVec.ofNat 32 (w % 2 ^ nbits)) 4) :: s.inputs } := by
      simp [State.withFetchWord, placeTableWord, hread]
    refine ⟨s, ?_, rfl⟩
    rw [hplace, step_cons rfl]
    exact hostAccess_read_of_decodeRead hread s
  · have hplace : s.withFetchWord nbits w =
        { s with latch := BitVec.ofNat 32 (w % 2 ^ nbits), status := ⟨s.status.result, true⟩,
                 inputs := .sequencer :: s.inputs } := by
      simp [State.withFetchWord, placeTableWord, hnone]
    refine ⟨{ s with latch := BitVec.ofNat 32 (w % 2 ^ nbits), status := ⟨s.status.result, true⟩ }, ?_, rfl⟩
    rw [hplace]
    exact (sequencerStepRunsTheDecodedCommand _ _ (.inl rfl) rfl).2 i hcmd

end Sys2Proof.Proofs

/-! PROOFS. The tables by rows (40_builder.md R109 to R113): where each degree's rows stand, and a voting-row family as the
partition of the cube into the cosets of its row. -/

namespace Sys2Proof.Proofs

open Sys2Proof.Machine

/-! ## The degree boundaries -/

theorem upperOf_buildTables {r m d : Nat} (hr : r < m) (hd : d ≤ r) :
    upperOf (buildTables r m) d + 1 = (monomialsBelow m (d + 1)).length := by
  rw [← upperBound_add_one (hd.trans hr.le)]
  simp [upperOf, buildTables, Nat.lt_succ_of_le hd]

theorem length_subsets_eq_choose {m d : Nat} (h : d ≤ m) : (subsets m d).length = m.choose d := by
  rw [length_subsets h, binomial_eq_choose h]

/-- The rows below degree `d` come first in the enumeration. -/
theorem length_getD_monomials_lt_iff {r m d j : Nat} (hd : d ≤ r + 1) (hj : j < (monomials r m).length) :
    ((monomials r m).getD j []).length < d ↔ j < (monomialsBelow m d).length := by
  obtain ⟨k, hk⟩ := Nat.exists_eq_add_of_le hd
  have hsplit : monomials r m = monomialsBelow m d ++ ((List.range k).map (d + ·)).flatMap (subsets m) := by
    rw [monomials, hk, List.range_add, List.flatMap_append, monomialsBelow]
  by_cases hlow : j < (monomialsBelow m d).length
  · have hmem : (monomialsBelow m d)[j] ∈ monomialsBelow m d := List.getElem_mem _
    obtain ⟨d', hd', hsub⟩ := List.mem_flatMap.mp hmem
    rw [hsplit, List.getD_append _ _ _ _ hlow, List.getD_eq_getElem _ _ hlow, length_of_mem_subsets hsub]
    exact iff_of_true (List.mem_range.mp hd') hlow
  · rw [hsplit, List.length_append] at hj
    rw [hsplit, List.getD_append_right _ _ _ _ (Nat.not_lt.mp hlow), List.getD_eq_getElem _ _ (by omega)]
    obtain ⟨d', hd', hsub⟩ := List.mem_flatMap.mp (List.getElem_mem (l := ((List.range k).map (d + ·)).flatMap (subsets m))
      (n := j - (monomialsBelow m d).length) (by omega))
    obtain ⟨x, -, rfl⟩ := List.mem_map.mp hd'
    rw [length_of_mem_subsets hsub]
    exact iff_of_false (by omega) hlow

/-- Settles O46: the boundaries count the monomials below a degree and up to it. -/
theorem degreeBoundariesDelimitTheDegrees : Obligations.DegreeBoundariesDelimitTheDegrees := by
  unfold Obligations.DegreeBoundariesDelimitTheDegrees
  intro r m hr
  refine ⟨lowerOf_buildTables hr r.zero_le, upperOf_buildTables hr le_rfl, fun d hd => ?_, fun d hd => ?_⟩
  · exact (lowerOf_buildTables hr hd).trans (upperOf_buildTables hr hd.le).symm
  · have hlow : (buildTables r m).lower.getD d 0 = (monomialsBelow m d).length := lowerOf_buildTables hr hd
    have hup : (buildTables r m).upper.getD d 0 + 1 = (monomialsBelow m (d + 1)).length := upperOf_buildTables hr hd
    have hcount : (monomialsBelow m (d + 1)).length = (monomialsBelow m d).length + m.choose d := by
      rw [monomialsBelow_succ, List.length_append, length_subsets_eq_choose (hd.trans hr.le)]
    refine ⟨by omega, Nat.choose_pos (hd.trans hr.le), fun j hj => ?_⟩
    have hbelow := length_getD_monomials_lt_iff (d := d) (by omega) hj
    have hupto := length_getD_monomials_lt_iff (d := d + 1) (by omega) hj
    show ((monomials r m).getD j []).length = d ↔ _
    omega

/-! ## The number of points of a coset -/

/-- Flipping a bit permutes the points. -/
theorem countP_range_xor {m k : Nat} (hk : k < m) (p : Nat → Bool) :
    (List.range (2 ^ m)).countP (fun c => p (c ^^^ 2 ^ k)) = (List.range (2 ^ m)).countP p := by
  have hflip : 2 ^ k < 2 ^ m := Nat.pow_lt_pow_right (by omega) hk
  have hsub : (List.range (2 ^ m)).map (· ^^^ 2 ^ k) ⊆ List.range (2 ^ m) := by
    intro c hc
    obtain ⟨x, hx, rfl⟩ := List.mem_map.mp hc
    exact List.mem_range.mpr (Nat.xor_lt_two_pow (List.mem_range.mp hx) hflip)
  have hperm : ((List.range (2 ^ m)).map (· ^^^ 2 ^ k)).Perm (List.range (2 ^ m)) :=
    (List.subperm_of_subset (List.nodup_range.map fun x y h => Nat.xor_left_inj.mp h) hsub).perm_of_length_le (by simp)
  rw [← hperm.countP_eq p, List.countP_map]
  rfl

theorem variableBit_xor_same {m i : Nat} (c : Nat) :
    variableBit m i (c ^^^ 2 ^ (m - 1 - i)) = !variableBit m i c := by
  simp [variableBit, Nat.testBit_xor]

/-- A variable left open takes either value without leaving the coset. -/
theorem votingBit_xor_of_notMem {m i : Nat} {comp : List Nat} {a : Bits} (hi : i < m) (hcomp : ∀ j ∈ comp, j < m)
    (hmem : i ∉ comp) (ha : a.length = comp.length) (c : Nat) :
    votingBit m comp a (c ^^^ 2 ^ (m - 1 - i)) = votingBit m comp a c := by
  have hmap : comp.map (fun j => variableBit m j (c ^^^ 2 ^ (m - 1 - i))) = comp.map (fun j => variableBit m j c) :=
    List.map_congr_left fun j hj => variableBit_xor_of_ne hi (hcomp j hj) (ne_of_mem_of_not_mem hj hmem) c
  rw [Bool.eq_iff_iff, votingBit_eq_true_iff ha, votingBit_eq_true_iff ha, hmap]

/-- Fixing the values of some variables leaves an equal share of the points: each further variable halves them. -/
theorem countP_votingBit {m : Nat} {comp : List Nat} {a : Bits} (hnodup : comp.Nodup) (hlt : ∀ i ∈ comp, i < m)
    (ha : a.length = comp.length) : 2 ^ comp.length * (List.range (2 ^ m)).countP (votingBit m comp a) = 2 ^ m := by
  induction comp generalizing a with
  | nil =>
    obtain rfl := List.length_eq_zero_iff.mp ha
    have hall : (List.range (2 ^ m)).countP (votingBit m [] []) = (List.range (2 ^ m)).length :=
      List.countP_eq_length.mpr fun _ _ => rfl
    rw [hall, List.length_range, List.length_nil, Nat.pow_zero, Nat.one_mul]
  | cons i comp ih => cases a with
    | nil => cases ha
    | cons b a =>
      obtain ⟨hi, hcomp⟩ := List.forall_mem_cons.mp hlt
      obtain ⟨hmem, hnodup⟩ := List.nodup_cons.mp hnodup
      have ha' : a.length = comp.length := Nat.succ.inj ha
      have hsplit := List.countP_eq_countP_filter_add (List.range (2 ^ m)) (votingBit m comp a)
        (fun c => variableBit m i c == b)
      rw [List.countP_filter, List.countP_filter] at hsplit
      have hthis : (List.range (2 ^ m)).countP (fun c => votingBit m comp a c && variableBit m i c == b) =
          (List.range (2 ^ m)).countP (votingBit m (i :: comp) (b :: a)) :=
        List.countP_congr fun c _ => by simp [votingBit, and_comm]
      have hother : (List.range (2 ^ m)).countP (fun c => votingBit m comp a c && !(variableBit m i c == b)) =
          (List.range (2 ^ m)).countP (fun c => votingBit m comp a c && variableBit m i c == b) := by
        rw [← countP_range_xor (k := m - 1 - i) (by omega)]
        refine List.countP_congr fun c _ => ?_
        rw [votingBit_xor_of_notMem hi hcomp hmem ha', variableBit_xor_same]
        cases variableBit m i c <;> cases b <;> rfl
      rw [hother, hthis] at hsplit
      rw [List.length_cons, Nat.pow_succ, Nat.mul_assoc, Nat.two_mul, ← hsplit, ih hnodup hcomp ha']

theorem popcount_votingVector {m : Nat} {comp : List Nat} {a : Bits} (hnodup : comp.Nodup) (hlt : ∀ i ∈ comp, i < m)
    (ha : a.length = comp.length) : 2 ^ comp.length * popcount (votingVector m comp a) = 2 ^ m := by
  rw [← countP_votingBit hnodup hlt ha, popcount, votingVector, blockLength, List.count_eq_countP, List.countP_map]
  congr 2
  exact funext fun c => by simp

/-! ## A family as a partition -/

/-- R111 with the assignment as a function of the variables. -/
theorem votingBit_map_eq_true_iff {m c : Nat} {S : List Nat} (g : Nat → Bool) (hc : c < 2 ^ m) :
    votingBit m (complementOf m S) ((complementOf m S).map g) c = true ↔
      ∀ i < m, i ∉ S → (variableVector m i).getD c false = g i := by
  rw [votingBit_eq_true_iff (by simp), eq_comm, List.map_inj_left]
  simp only [mem_complementOf, and_imp, getD_variableVector _ hc]

theorem votingVector_mem_votingFamily (m : Nat) (S : List Nat) (g : Nat → Bool) :
    votingVector m (complementOf m S) ((complementOf m S).map g) ∈ votingFamily m S :=
  mem_votingFamily.mpr ⟨_, by simp, rfl⟩

/-- The assignment of a voting vector, as a function of the variables. -/
theorem exists_fun_of_mem_votingFamily {m : Nat} {S : List Nat} {v : Bits} (h : v ∈ votingFamily m S) :
    ∃ g : Nat → Bool, v = votingVector m (complementOf m S) ((complementOf m S).map g) := by
  obtain ⟨a, ha, rfl⟩ := mem_votingFamily.mp h
  obtain ⟨g, rfl⟩ := exists_map_eq (nodup_complementOf m S) ha
  exact ⟨g, rfl⟩

/-- Each point is in one vector of a family: that of its own values. -/
theorem countP_votingFamily_getD {m c : Nat} (S : List Nat) (hc : c < 2 ^ m) :
    (votingFamily m S).countP (fun v => v.getD c false) = 1 := by
  have hown : (complementOf m S).map (fun i => variableBit m i c) ∈ assignments (complementOf m S).length :=
    mem_assignments.mpr (List.length_map ..)
  rw [votingFamily, List.countP_map, ← List.count_eq_one_of_mem (nodup_assignments _) hown, List.count_eq_countP]
  refine List.countP_congr fun a ha => ?_
  rw [Function.comp_apply, getD_votingVector _ _ hc, votingBit_eq_true_iff (mem_assignments.mp ha), beq_iff_eq]

/-- Two vectors of a family share no point. -/
theorem pairwise_vand_votingFamily (m : Nat) (S : List Nat) :
    (votingFamily m S).Pairwise (fun u v => vand u v = zeros (2 ^ m)) := by
  refine List.pairwise_map.mpr ((nodup_assignments _).imp_of_mem fun {a b} ha hb hne => ?_)
  rw [vand, votingVector, votingVector, List.zipWith_map, List.zipWith_self]
  refine map_range_eq_replicate fun c _ => Bool.eq_false_iff.mpr fun hboth => hne ?_
  obtain ⟨h, h'⟩ := (Bool.and_eq_true _ _).mp hboth
  rw [(votingBit_eq_true_iff (mem_assignments.mp ha) c).mp h, (votingBit_eq_true_iff (mem_assignments.mp hb) c).mp h']

theorem succ_mod_two_beq_one (k : Nat) : ((k + 1) % 2 == 1) = !(k % 2 == 1) := by
  rcases Nat.mod_two_eq_zero_or_one k with h | h <;> simp [Nat.add_mod, h]

/-- A sum of vectors, point by point. -/
theorem getD_vxor {u v : Bits} (h : u.length = v.length) (c : Nat) :
    (vxor u v).getD c false = Bool.xor (u.getD c false) (v.getD c false) := by
  by_cases hc : c < u.length
  · simp [vxor, hc, h ▸ hc]
  · simp [vxor, Nat.not_lt.mp hc, h ▸ Nat.not_lt.mp hc]

theorem length_foldr_vxor {n : Nat} {vs : List Bits} (h : ∀ v ∈ vs, v.length = n) : (vs.foldr vxor (zeros n)).length = n := by
  induction vs with
  | nil => simp
  | cons v vs ih =>
    obtain ⟨hv, hvs⟩ := List.forall_mem_cons.mp h
    simp [hv, ih hvs]

theorem getD_foldr_vxor {n : Nat} {vs : List Bits} (h : ∀ v ∈ vs, v.length = n) (c : Nat) :
    (vs.foldr vxor (zeros n)).getD c false = (vs.countP (fun v => v.getD c false) % 2 == 1) := by
  induction vs with
  | nil => simp [zeros]
  | cons v vs ih =>
    obtain ⟨hv, hvs⟩ := List.forall_mem_cons.mp h
    rw [List.foldr_cons, getD_vxor (hv.trans (length_foldr_vxor hvs).symm), ih hvs, List.countP_cons]
    cases v.getD c false
    · simp
    · rw [if_pos rfl, succ_mod_two_beq_one, Bool.true_xor]

theorem length_of_mem_votingFamily {m : Nat} {S : List Nat} {v : Bits} (h : v ∈ votingFamily m S) : v.length = 2 ^ m := by
  obtain ⟨a, -, rfl⟩ := mem_votingFamily.mp h
  exact length_votingVector m _ a

theorem foldr_vxor_votingFamily (m : Nat) (S : List Nat) :
    (votingFamily m S).foldr vxor (zeros (2 ^ m)) = ones (2 ^ m) := by
  have hlen := length_foldr_vxor (vs := votingFamily m S) fun v hv => length_of_mem_votingFamily hv
  refine List.ext_getElem (by simp [hlen]) fun c hc hc' => ?_
  have hpoint := getD_foldr_vxor (vs := votingFamily m S) (fun v hv => length_of_mem_votingFamily hv) c
  rw [List.getD_eq_getElem _ _ hc, countP_votingFamily_getD S (hlen ▸ hc)] at hpoint
  simpa [ones] using hpoint

/-- The family of the empty monomial fixes every variable, and so holds every point alone. -/
theorem unit_mem_votingFamily_nil {m c : Nat} (hc : c < 2 ^ m) :
    (List.range (2 ^ m)).map (fun x => x == c) ∈ votingFamily m [] := by
  have hunit : (List.range (2 ^ m)).map (fun x => x == c) =
      votingVector m (complementOf m []) ((complementOf m []).map fun i => variableBit m i c) := by
    refine List.map_congr_left fun x hx => ?_
    have hx' : x < 2 ^ m := List.mem_range.mp hx
    rw [Bool.eq_iff_iff, beq_iff_eq, votingBit_map_eq_true_iff _ hx']
    constructor
    · rintro rfl i - -
      exact getD_variableVector i hx'
    · intro h
      exact point_ext hx' hc fun i hi => (getD_variableVector i hx').symm.trans (h i hi List.not_mem_nil)
  rw [hunit]
  exact votingVector_mem_votingFamily m [] _

theorem length_votingFamily_of_mem_monomials {r m : Nat} {S : List Nat} (hS : S ∈ monomials r m) :
    (votingFamily m S).length = 2 ^ (m - S.length) := by
  obtain ⟨hinc, hlt, -⟩ := mem_monomials.mp hS
  rw [length_votingFamily, length_complementOf (hinc.imp Nat.ne_of_lt) hlt]

theorem popcount_of_mem_votingFamily {r m : Nat} {S : List Nat} {v : Bits} (hr : r < m) (hS : S ∈ monomials r m)
    (hv : v ∈ votingFamily m S) : popcount v = 2 ^ S.length := by
  obtain ⟨hinc, hlt, hle⟩ := mem_monomials.mp hS
  obtain ⟨a, ha, rfl⟩ := mem_votingFamily.mp hv
  have hpoints := popcount_votingVector (nodup_complementOf m S) (fun i hi => (mem_complementOf.mp hi).1) ha
  rw [length_complementOf (hinc.imp Nat.ne_of_lt) hlt] at hpoints
  refine Nat.eq_of_mul_eq_mul_left (Nat.two_pow_pos (m - S.length)) ?_
  rw [hpoints, ← Nat.pow_add, Nat.sub_add_cancel (by omega)]

/-- Settles O47: a point lies in the vector of its own values outside the monomial, and the points of a vector are an equal
share of the cube. -/
theorem votingFamilyPartitionsTheCube : Obligations.VotingFamilyPartitionsTheCube := by
  unfold Obligations.VotingFamilyPartitionsTheCube
  refine ⟨fun r m S hr hS => ?_, fun r m hr => ?_, fun m c hc => unit_mem_votingFamily_nil hc, by decide⟩
  · have hsize := length_votingFamily_of_mem_monomials hS
    have hle : S.length ≤ r := (mem_monomials.mp hS).2.2
    have hdvd : 2 ∣ (votingFamily m S).length := hsize ▸ dvd_pow_self 2 (by omega)
    refine ⟨fun v hv => ⟨length_of_mem_votingFamily hv, popcount_of_mem_votingFamily hr hS hv, ?_⟩, fun g => ?_,
      pairwise_vand_votingFamily m S, foldr_vxor_votingFamily m S, fun c hc => ?_, hsize, hdvd,
      Nat.le_of_dvd (hsize ▸ Nat.two_pow_pos _) hdvd⟩
    · obtain ⟨g, rfl⟩ := exists_fun_of_mem_votingFamily hv
      exact ⟨g, fun c hc => by rw [getD_votingVector _ _ hc, votingBit_map_eq_true_iff g hc]⟩
    · exact ⟨_, votingVector_mem_votingFamily m S g, fun c hc => by
        rw [getD_votingVector _ _ hc, votingBit_map_eq_true_iff g hc]⟩
    · rw [← List.countP_eq_length_filter, countP_votingFamily_getD S hc]
  · have hrows := length_monomials hr.le
    refine ⟨by rw [vote_buildTables, List.length_map, hrows], fun j hj => ?_⟩
    rw [← hrows] at hj
    simp [buildTables, List.getD, hj]

end Sys2Proof.Proofs

/-! PROOFS. The encoder as a linear map (41_encode.md, equivalent forms). -/

namespace Sys2Proof.Proofs

open Sys2Proof.Machine

theorem length_vxor_of_length_eq {u v : Bits} {n : Nat} (hu : u.length = n) (hv : v.length = n) : (vxor u v).length = n := by
  rw [length_vxor, hu, hv, Nat.min_self]

theorem zeros_vxor {u : Bits} {n : Nat} (h : u.length = n) : vxor (zeros n) u = u := by
  rw [vxor_comm, vxor_zeros h]

theorem vxor_append {u v : Bits} (h : u.length = v.length) (u' v' : Bits) :
    vxor (u ++ u') (v ++ v') = vxor u v ++ vxor u' v' :=
  List.zipWith_append h

theorem polyVector_vxor (m : Nat) (Ss : List (List Nat)) {u v : Bits} (h : u.length = v.length) :
    polyVector m Ss (vxor u v) = vxor (polyVector m Ss u) (polyVector m Ss v) := by
  rw [polyVector, polyVector, polyVector, vxor_map_range]
  exact List.map_congr_left fun c _ => dot2_vxor_left u v _ h

theorem polyVector_zeros (m : Nat) (Ss : List (List Nat)) (n : Nat) : polyVector m Ss (zeros n) = zeros (2 ^ m) :=
  map_range_eq_replicate fun _ _ => by rw [dot2_comm, dot2_zeros]

theorem polyVector_cons (m : Nat) (S : List Nat) (Ss : List (List Nat)) (b : Bool) (w : Bits) :
    polyVector m (S :: Ss) (b :: w) = vxor ((evalVector m S).map (b && ·)) (polyVector m Ss w) := by
  rw [← polyVector_singleton, ← polyVector_append (by rfl), List.singleton_append, List.singleton_append]

/-- A polynomial's vector is the sum of the vectors of the monomials with coefficient 1. -/
theorem polyVector_eq_foldr (m : Nat) (Ss : List (List Nat)) (w : Bits) : polyVector m Ss w =
    ((w.zip (Ss.map (evalVector m))).filterMap (fun p => if p.1 then some p.2 else none)).foldr vxor (zeros (2 ^ m)) := by
  induction Ss generalizing w with
  | nil =>
    rw [List.map_nil, List.zip_nil_right]
    exact map_range_eq_replicate fun _ _ => by rw [List.map_nil, dot2_nil_right]
  | cons S Ss ih => cases w with
    | nil => exact map_range_eq_replicate fun _ _ => dot2_nil_left _
    | cons b w =>
      rw [polyVector_cons, ih]
      cases b with
      | true => simp
      | false =>
        have hzero : (evalVector m S).map (false && ·) = zeros (2 ^ m) := by simp [zeros, blockLength]
        rw [hzero, zeros_vxor (by rw [← ih, length_polyVector])]
        simp

theorem monomials_zero (m : Nat) : monomials 0 m = [[]] := by simp [monomials]

/-- Settles O49: the codeword is the polynomial's vector, which is linear in the coefficients. -/
theorem encodeCoreIsTheXorOfTheSelectedRows : Obligations.EncodeCoreIsTheXorOfTheSelectedRows := by
  unfold Obligations.EncodeCoreIsTheXorOfTheSelectedRows
  intro r m a b hr ha hb
  simp only [encodeCore_buildTables, gen_buildTables, generatorMatrix, monomials_zero, polyVector_singleton, evalVector_nil]
  exact ⟨polyVector_eq_foldr m _ a, polyVector_vxor m _ (ha.trans hb.symm), by simp, by simp [ones, zeros]⟩

end Sys2Proof.Proofs

/-! PROOFS. The decoder on any received vector (42_decode.md R150 to R157): the order within a degree, the length of a result,
and what adding a codeword does. -/

namespace Sys2Proof.Proofs

open Sys2Proof.Machine

/-! ## The rows of a degree in any order -/

theorem decideRows_eq_none_iff {t : Tables} {e : Bits} {rows : List Nat} :
    decideRows t e rows = none ↔ ∃ pos ∈ rows, voteOn (t.vote.getD pos []) e = none := by
  induction rows with
  | nil => simp [decideRows]
  | cons pos rest ih =>
    rw [decideRows, List.exists_mem_cons_iff, ← ih]
    cases voteOn (t.vote.getD pos []) e with
    | none => simp
    | some b => cases decideRows t e rest <;> simp

/-- Each row stands with its own vote. -/
theorem zip_of_decideRows_eq_some {t : Tables} {e : Bits} {rows : List Nat} {w : Bits} (h : decideRows t e rows = some w) :
    rows.zip w = rows.map (fun pos => (pos, (voteOn (t.vote.getD pos []) e).getD false)) := by
  induction decideRows_eq_some_iff.mp h with
  | nil => rfl
  | cons hvote hrest ih =>
    rw [List.zip_cons_cons, List.map_cons, hvote, ih (decideRows_eq_some_iff.mpr hrest)]
    rfl

/-- Settles O51: whether some row ties, and each row with its vote, do not depend on the order. -/
theorem orderOfTheRowsOfADegreeDoesNotMatter : Obligations.OrderOfTheRowsOfADegreeDoesNotMatter := by
  unfold Obligations.OrderOfTheRowsOfADegreeDoesNotMatter
  intro t e rows rows' hperm
  refine ⟨?_, fun w w' hw hw' => ?_⟩
  · simp only [decideRows_eq_none_iff, hperm.mem_iff]
  · rw [zip_of_decideRows_eq_some hw, zip_of_decideRows_eq_some hw']
    exact hperm.map _

/-! ## The result -/

theorem decodeCore_eq_decoded_iff {t : Tables} {r n : Nat} {e w : Bits} :
    decodeCore t r n e = .decoded w ↔ decodeBelow t n (r + 1) e = some w := by
  rw [decodeCore]
  cases decodeBelow t n (r + 1) e <;> simp

theorem decodeCore_eq_ambiguous_iff {t : Tables} {r n : Nat} {e : Bits} :
    decodeCore t r n e = .ambiguous ↔ ∀ w, decodeCore t r n e ≠ .decoded w := by
  cases decodeCore t r n e <;> simp

/-- One round of the decoder's loop. -/
theorem decodeBelow_succ_eq_some_iff {t : Tables} {n d : Nat} {e w : Bits} : decodeBelow t n (d + 1) e = some w ↔
    ∃ top low, decideRows t e (rowsOf t d) = some top ∧ decodeBelow t n d (peelOff t n d top e) = some low ∧
      w = low ++ top := by
  rw [decodeBelow]
  cases decideRows t e (rowsOf t d) with
  | none => simp
  | some top =>
    cases h : decodeBelow t n d (peelOff t n d top e) <;> simp [h, eq_comm]

section Loop

variable {r m d : Nat} (hr : r < m)
include hr

theorem length_of_decideRows_rowsOf (hd : d ≤ r) {e w : Bits}
    (h : decideRows (buildTables r m) e (rowsOf (buildTables r m) d) = some w) : w.length = (subsets m d).length :=
  ((decideRows_rowsOf_buildTables hr hd).mp h).length_eq.symm

theorem length_of_decodeBelow (hd : d ≤ r + 1) {n : Nat} {e w : Bits}
    (h : decodeBelow (buildTables r m) n d e = some w) : w.length = (monomialsBelow m d).length := by
  induction d generalizing e w with
  | zero => rw [← Option.some.inj h]; rfl
  | succ d ih =>
    obtain ⟨top, low, htop, hlow, rfl⟩ := decodeBelow_succ_eq_some_iff.mp h
    rw [List.length_append, ih (Nat.le_of_succ_le hd) hlow, length_of_decideRows_rowsOf hr (Nat.le_of_succ_le_succ hd) htop,
      monomialsBelow_succ, List.length_append]

theorem length_of_decodeCore {n : Nat} {e w : Bits} (h : decodeCore (buildTables r m) r n e = .decoded w) :
    w.length = messageLength r m := by
  rw [length_of_decodeBelow hr le_rfl (decodeCore_eq_decoded_iff.mp h), ← monomials_eq_monomialsBelow, length_monomials hr.le]

end Loop

/-! ## Adding a codeword -/

theorem voteOn_eq_some_iff {family : List Bits} {e : Bits} {x : Bool} : voteOn family e = some x ↔
    family.countP (fun v => dot2 e v == !x) < family.countP (fun v => dot2 e v == x) := by
  obtain ⟨-, hone, hzero⟩ := voteIsTheStrictMajority family e
  cases x with
  | true => simpa using hone
  | false => simpa using hzero

/-- Turning every vote of a family by the same bit turns its decision by that bit. -/
theorem voteOn_eq_some_xor {family : List Bits} {e e' : Bits} {b x : Bool}
    (hvotes : ∀ v ∈ family, dot2 e' v = Bool.xor (dot2 e v) b) (h : voteOn family e = some x) :
    voteOn family e' = some (Bool.xor x b) := by
  have hcount : ∀ y, family.countP (fun v => dot2 e' v == Bool.xor y b) = family.countP (fun v => dot2 e v == y) :=
    fun y => List.countP_congr fun v hv => by simp [hvotes v hv]
  have hlt := voteOn_eq_some_iff.mp h
  rw [← hcount, ← hcount, Bool.not_xor] at hlt
  exact voteOn_eq_some_iff.mpr hlt

theorem forall₂_zipWith {α β γ δ : Type} {R : α → β → Prop} {R' : α → δ → Prop} {f : β → γ → δ} {xs : List α} {ys : List β}
    {zs : List γ} (h : List.Forall₂ R xs ys) (hlen : xs.length = zs.length)
    (hstep : ∀ x y z, (x, z) ∈ xs.zip zs → R x y → R' x (f y z)) : List.Forall₂ R' xs (List.zipWith f ys zs) := by
  induction h generalizing zs with
  | nil => exact .nil
  | cons hxy _ ih => cases zs with
    | nil => cases hlen
    | cons z zs =>
      exact .cons (hstep _ _ _ List.mem_cons_self hxy)
        (ih (Nat.succ.inj hlen) fun x y z hmem => hstep x y z (List.mem_cons_of_mem _ hmem))

section Equivariance

variable {r m d : Nat} (hr : r < m) {e : Bits} (he : e.length = 2 ^ m)
include hr he

/-- Adding a polynomial of degree at most `d` adds its coefficients of degree `d` to the decisions on degree `d`. -/
theorem decideRows_vxor_polyVector (hd : d ≤ r) {x low top : Bits} (hlow : low.length = (monomialsBelow m d).length)
    (htop : top.length = (subsets m d).length)
    (h : decideRows (buildTables r m) e (rowsOf (buildTables r m) d) = some x) :
    decideRows (buildTables r m) (vxor e (polyVector m (monomialsBelow m (d + 1)) (low ++ top)))
      (rowsOf (buildTables r m) d) = some (vxor x top) := by
  rw [decideRows_rowsOf_buildTables hr hd] at h ⊢
  refine forall₂_zipWith h htop.symm fun S y b hb hvote => voteOn_eq_some_xor (fun v hv => ?_) hvote
  have hcoeff : dot2 (polyVector m (monomials d m) (low ++ top)) v = b := by
    refine dot2_polyVector_of_mem_votingFamily (List.of_mem_zip hb).1 ?_ ?_ hv
    · rw [monomials_eq_monomialsBelow, monomialsBelow_succ, List.length_append, List.length_append, hlow, htop]
    · rw [monomials_eq_monomialsBelow, monomialsBelow_succ, List.zip_append hlow.symm]
      exact List.mem_append_right _ hb
  rw [← monomials_eq_monomialsBelow, dot2_vxor_left _ _ _ (by rw [length_polyVector, he]), hcoeff]

/-- The peel-off takes away what was added in degree `d`. -/
theorem peelOff_vxor_polyVector (hd : d ≤ r) {x low top : Bits} (hlow : low.length = (monomialsBelow m d).length)
    (hx : x.length = top.length) :
    peelOff (buildTables r m) (2 ^ m) d (vxor x top) (vxor e (polyVector m (monomialsBelow m (d + 1)) (low ++ top))) =
      vxor (peelOff (buildTables r m) (2 ^ m) d x e) (polyVector m (monomialsBelow m d) low) := by
  rw [peelOff_buildTables hr hd, peelOff_buildTables hr hd, monomialsBelow_succ, polyVector_append hlow, polyVector_vxor m _ hx]
  generalize hX : polyVector m (subsets m d) x = X
  generalize hL : polyVector m (monomialsBelow m d) low = L
  generalize hT : polyVector m (subsets m d) top = T
  have hlen : (vxor (vxor e L) X).length = T.length := by simp [← hX, ← hL, ← hT, he]
  calc vxor (vxor e (vxor L T)) (vxor X T) = vxor (vxor (vxor (vxor e L) X) T) T := by
        rw [← vxor_assoc e, ← vxor_assoc (vxor (vxor e L) T), vxor_right_comm _ T X]
    _ = vxor (vxor e L) X := vxor_vxor_cancel_right hlen
    _ = vxor (vxor e X) L := vxor_right_comm ..

theorem decodeBelow_vxor_polyVector (hd : d ≤ r + 1) {x w : Bits} (hw : w.length = (monomialsBelow m d).length)
    (h : decodeBelow (buildTables r m) (2 ^ m) d e = some x) :
    decodeBelow (buildTables r m) (2 ^ m) d (vxor e (polyVector m (monomialsBelow m d) w)) = some (vxor x w) := by
  induction d generalizing e x w with
  | zero =>
    obtain rfl := List.length_eq_zero_iff.mp hw
    obtain rfl := Option.some.inj h
    rfl
  | succ d ih =>
    have hdr : d ≤ r := Nat.le_of_succ_le_succ hd
    rw [monomialsBelow_succ, List.length_append] at hw
    obtain ⟨low, top, rfl, hlow, htop⟩ : ∃ low top : Bits,
        w = low ++ top ∧ low.length = (monomialsBelow m d).length ∧ top.length = (subsets m d).length :=
      ⟨w.take (monomialsBelow m d).length, w.drop (monomialsBelow m d).length, (List.take_append_drop ..).symm,
        by simp [hw], by simp [hw]⟩
    obtain ⟨xtop, xlow, hxtop, hxlow, rfl⟩ := decodeBelow_succ_eq_some_iff.mp h
    have hlenTop : xtop.length = top.length := (length_of_decideRows_rowsOf hr hdr hxtop).trans htop.symm
    have hlenLow : xlow.length = low.length := (length_of_decodeBelow hr (Nat.le_of_succ_le hd) hxlow).trans hlow.symm
    have hpeelLen : (peelOff (buildTables r m) (2 ^ m) d xtop e).length = 2 ^ m := by
      rw [peelOff_buildTables hr hdr]
      exact length_vxor_of_length_eq he (length_polyVector ..)
    refine decodeBelow_succ_eq_some_iff.mpr ⟨vxor xtop top, vxor xlow low, ?_, ?_, vxor_append hlenLow _ _⟩
    · exact decideRows_vxor_polyVector hr he hdr hlow htop hxtop
    · rw [peelOff_vxor_polyVector hr he hdr hlow hlenTop]
      exact ih hpeelLen (Nat.le_of_succ_le hd) hlow hxlow

theorem decodeCore_vxor_encodeCore {msg w : Bits} (hmsg : msg.length = messageLength r m)
    (h : decodeCore (buildTables r m) r (2 ^ m) e = .decoded w) :
    decodeCore (buildTables r m) r (2 ^ m) (vxor e (encodeCore (buildTables r m) (2 ^ m) msg)) = .decoded (vxor w msg) := by
  rw [decodeCore_eq_decoded_iff] at h ⊢
  rw [encodeCore_buildTables, monomials_eq_monomialsBelow]
  exact decodeBelow_vxor_polyVector hr he le_rfl (hmsg.trans (length_monomials hr.le).symm) h

end Equivariance

/-- Settles O55: by induction on the degree; the codeword added a second time takes ambiguity back. -/
theorem decodeIsEquivariant : Obligations.DecodeIsEquivariant := by
  unfold Obligations.DecodeIsEquivariant
  intro r m msg e hr hmsg he
  have hadd := fun {e' : Bits} (he' : e'.length = 2 ^ m) {w : Bits} => decodeCore_vxor_encodeCore hr he' (w := w) hmsg
  have hlen : (vxor e (encodeCore (buildTables r m) (2 ^ m) msg)).length = 2 ^ m :=
    length_vxor_of_length_eq he (length_encodeCore ..)
  have hback : vxor (vxor e (encodeCore (buildTables r m) (2 ^ m) msg)) (encodeCore (buildTables r m) (2 ^ m) msg) = e :=
    vxor_vxor_cancel_right (he.trans (length_encodeCore ..).symm)
  refine ⟨?_, fun w hw => hadd he hw⟩
  rw [decodeCore_eq_ambiguous_iff, decodeCore_eq_ambiguous_iff]
  constructor
  · exact fun hnone w hw => hnone _ (hadd he hw)
  · intro hnone w hw
    have hdec := hadd hlen hw
    rw [hback] at hdec
    exact hnone _ hdec

end Sys2Proof.Proofs

/-! PROOFS. The decoder at its limits (42_decode.md R157, R160): the repetition code, a single error at `t = 0`, and an error of
weight `t + 1` that is not corrected. -/

namespace Sys2Proof.Proofs

open Sys2Proof.Machine

/-! ## The repetition code -/

/-- The vector that is 1 at point `c` alone. -/
def unitVector (n c : Nat) : Bits := (List.range n).map (fun x => x == c)

theorem map_range_getD (e : Bits) : (List.range e.length).map (fun c => e.getD c false) = e :=
  List.ext_getElem (by simp) fun c _ hc => by simp [hc]

theorem mem_zip_map {α : Type} (f : α → Bool) {x : α} {xs : List α} (h : x ∈ xs) : (x, f x) ∈ xs.zip (xs.map f) := by
  have hzip : xs.zip (xs.map f) = xs.map (fun y => (y, f y)) := by
    simpa using List.zip_map' (f := id) (g := f) (l := xs)
  rw [hzip]
  exact List.mem_map.mpr ⟨x, h, rfl⟩

theorem dot2_unitVector {e : Bits} {c : Nat} (hc : c < e.length) : dot2 e (unitVector e.length c) = e.getD c false := by
  have hmem := mem_zip_map (fun x => e.getD x false) (List.mem_range.mpr hc)
  rw [map_range_getD] at hmem
  exact dot2_indicator List.nodup_range hmem

/-- The family of the empty monomial is the unit vectors, in some order. -/
theorem votingFamily_nil_perm (m : Nat) : (votingFamily m []).Perm ((List.range (2 ^ m)).map (unitVector (2 ^ m))) := by
  have hinj : ((List.range (2 ^ m)).map (unitVector (2 ^ m))).Nodup := by
    refine List.nodup_range.map_on fun c hc c' _ heq => ?_
    have hpoint := congrArg (fun v : Bits => v.getD c false) heq
    simpa [unitVector, List.mem_range.mp hc] using hpoint
  have hsub : (List.range (2 ^ m)).map (unitVector (2 ^ m)) ⊆ votingFamily m [] := by
    intro v hv
    obtain ⟨c, hc, rfl⟩ := List.mem_map.mp hv
    exact unit_mem_votingFamily_nil (List.mem_range.mp hc)
  have hlen : (votingFamily m []).length = 2 ^ m := by simp [complementOf]
  exact ((List.subperm_of_subset hinj hsub).perm_of_length_le (by simp [hlen])).symm

/-- The votes on the constant are the received elements. -/
theorem oneVotes_votingFamily_nil {m : Nat} {e : Bits} (he : e.length = 2 ^ m) :
    oneVotes (votingFamily m []) e = popcount e := by
  rw [oneVotes_eq_countP, (votingFamily_nil_perm m).countP_eq, List.countP_map, popcount_eq_length_filter_range,
    ← List.countP_eq_length_filter, ← he]
  exact List.countP_congr fun c hc => by rw [Function.comp_apply, dot2_unitVector (List.mem_range.mp hc)]

/-- With one row the decoder is that row's vote. -/
theorem decodeCore_zero_eq_decoded_iff {m : Nat} (hm : 0 < m) {e w : Bits} :
    decodeCore (buildTables 0 m) 0 (2 ^ m) e = .decoded w ↔ ∃ b, voteOn (votingFamily m []) e = some b ∧ w = [b] := by
  rw [decodeCore_eq_decoded_iff, decodeBelow_succ_eq_some_iff]
  simp only [decideRows_rowsOf_buildTables hm le_rfl, subsets_zero, decodeBelow, List.forall₂_cons_left_iff,
    List.forall₂_nil_left_iff]
  constructor
  · rintro ⟨top, low, ⟨b, rest, hvote, rfl, rfl⟩, hlow, rfl⟩
    obtain rfl := Option.some.inj hlow
    exact ⟨b, hvote, rfl⟩
  · rintro ⟨b, hvote, rfl⟩
    exact ⟨[b], [], ⟨b, [], hvote, rfl, rfl⟩, rfl, rfl⟩

/-- Settles O57: one row, whose votes are the elements themselves. -/
theorem repetitionCodeDecodesByMajority : Obligations.RepetitionCodeDecodesByMajority := by
  unfold Obligations.RepetitionCodeDecodesByMajority
  intro m e hm he
  have hlen : (votingFamily m []).length = 2 ^ m := by simp [complementOf]
  have hvote : voteOn (votingFamily m []) e =
      if popcount e = 2 ^ m - popcount e then none else some (decide (2 ^ m - popcount e < popcount e)) := by
    rw [voteOn, oneVotes_votingFamily_nil he, hlen]
  have hle : popcount e ≤ 2 ^ m := he ▸ List.count_le_length
  split
  next hhalf =>
    rw [if_pos (by omega)] at hvote
    refine decodeCore_eq_ambiguous_iff.mpr fun w hw => ?_
    obtain ⟨b, hb, -⟩ := (decodeCore_zero_eq_decoded_iff hm).mp hw
    rw [hvote] at hb
    contradiction
  next hhalf =>
    rw [if_neg (by omega)] at hvote
    refine (decodeCore_zero_eq_decoded_iff hm).mpr ⟨_, hvote, ?_⟩
    have hmost : 2 ^ m < 2 * popcount e ↔ 2 ^ m - popcount e < popcount e := by omega
    rw [decide_eq_decide.mpr hmost]

/-! ## A single error at `t = 0` -/

/-- The 1-votes have the parity of the weight, since the vectors of a family sum to all ones. -/
theorem oneVotes_votingFamily_mod_two {m : Nat} (S : List Nat) {e : Bits} (he : e.length = 2 ^ m) :
    (oneVotes (votingFamily m S) e % 2 == 1) = (popcount e % 2 == 1) := by
  have hsum : ∀ vs : List Bits, (∀ v ∈ vs, v.length = 2 ^ m) →
      (oneVotes vs e % 2 == 1) = dot2 e (vs.foldr vxor (zeros (2 ^ m))) := by
    intro vs hvs
    induction vs with
    | nil => rw [List.foldr_nil, dot2_zeros]; rfl
    | cons v vs ih =>
      obtain ⟨hv, hvs⟩ := List.forall_mem_cons.mp hvs
      rw [List.foldr_cons, dot2_comm, dot2_vxor_left _ _ _ (hv.trans (length_foldr_vxor hvs).symm), dot2_comm v,
        dot2_comm _ e, ← ih hvs, oneVotes_eq_countP, oneVotes_eq_countP, List.countP_cons]
      cases dot2 e v
      · simp
      · rw [if_pos rfl, succ_mod_two_beq_one, Bool.true_xor]
  have hones : vand e (ones (2 ^ m)) = e := by
    rw [← he]
    exact List.ext_getElem (by simp) fun c _ _ => by simp [vand, ones]
  rw [hsum _ fun v hv => length_of_mem_votingFamily hv, foldr_vxor_votingFamily, dot2, hones]

/-- A row that ties makes the decoder's first round tie. -/
theorem decodeCore_eq_ambiguous_of_tie {r m : Nat} (hr : r < m) {S : List Nat} {e : Bits} (hS : S ∈ subsets m r)
    (htie : voteOn (votingFamily m S) e = none) : decodeCore (buildTables r m) r (2 ^ m) e = .ambiguous := by
  refine decodeCore_eq_ambiguous_iff.mpr fun w hw => ?_
  obtain ⟨top, low, htop, -, -⟩ := decodeBelow_succ_eq_some_iff.mp (decodeCore_eq_decoded_iff.mp hw)
  have hrow : votingFamily m S ∈ (subsets m r).map (votingFamily m) := List.mem_map_of_mem hS
  rw [← map_vote_rowsOf_buildTables hr le_rfl] at hrow
  obtain ⟨pos, hpos, hfamily⟩ := List.mem_map.mp hrow
  rw [decideRows_eq_none_iff.mpr ⟨pos, hpos, by rw [hfamily, htie]⟩] at htop
  contradiction

theorem mem_monomials_of_mem_subsets {r m d : Nat} {S : List Nat} (h : S ∈ subsets m d) (hd : d ≤ r) : S ∈ monomials r m := by
  obtain ⟨hinc, hlt, rfl⟩ := mem_subsets.mp h
  exact mem_monomials.mpr ⟨hinc, hlt, hd⟩

theorem range_mem_subsets {m r : Nat} (h : r ≤ m) : List.range r ∈ subsets m r :=
  mem_subsets.mpr ⟨List.pairwise_lt_range, fun _ hi => (List.mem_range.mp hi).trans_le h, List.length_range⟩

/-- Settles O56: the codeword plays no part, and a top row has two votes, of which the error turns one. -/
theorem singleErrorIsAmbiguousAtStrengthZero : Obligations.SingleErrorIsAmbiguousAtStrengthZero := by
  unfold Obligations.SingleErrorIsAmbiguousAtStrengthZero
  intro r msg err hmsg herr hone
  have hr : r < r + 1 := Nat.lt_succ_self r
  rw [vxor_comm, (decodeIsEquivariant r (r + 1) msg err hr hmsg herr).1]
  have hS : List.range r ∈ subsets (r + 1) r := range_mem_subsets hr.le
  refine decodeCore_eq_ambiguous_of_tie hr hS ?_
  have hle := oneVotes_votingFamily_le (List.range r) herr
  have hpar := oneVotes_votingFamily_mod_two (List.range r) herr
  have hlen : (votingFamily (r + 1) (List.range r)).length = 2 := by
    rw [length_votingFamily_of_mem_monomials (mem_monomials_of_mem_subsets hS le_rfl), List.length_range,
      Nat.add_sub_cancel_left, Nat.pow_one]
  rw [hone] at hle hpar
  have hodd : oneVotes (votingFamily (r + 1) (List.range r)) err % 2 = 1 := by simpa using hpar
  have hvotes : oneVotes (votingFamily (r + 1) (List.range r)) err = 1 := by omega
  rw [voteOn, hvotes, hlen]
  rfl

/-! ## Beyond the radius -/

/-- The coefficients of one monomial. -/
def monomialMessage (r m : Nat) (S : List Nat) : Bits := (monomials r m).map (fun T => decide (T = S))

theorem encodeCore_monomialMessage {r m : Nat} {S : List Nat} (hS : S ∈ monomials r m) :
    encodeCore (buildTables r m) (2 ^ m) (monomialMessage r m S) = evalVector m S := by
  rw [encodeCore_buildTables]
  refine List.map_congr_left fun c _ => ?_
  rw [dot2_comm, monomialMessage]
  exact dot2_indicator (nodup_monomials r m) (mem_zip_map (fun T => evalBit m T c) hS)

theorem monomialMessage_ne_zeros {r m : Nat} {S : List Nat} (hS : S ∈ monomials r m) (n : Nat) :
    monomialMessage r m S ≠ zeros n := by
  have htrue : true ∈ monomialMessage r m S := List.mem_map.mpr ⟨S, hS, decide_eq_true rfl⟩
  intro heq
  rw [heq, zeros] at htrue
  exact absurd (List.eq_of_mem_replicate htrue) (by decide)

/-- The half of the codeword of `X_0 ⋯ X_{r-1}` on which `X_r` is `b`. -/
def halfVector (r m : Nat) (b : Bool) : Bits := votingVector m (List.range (r + 1)) (List.replicate r true ++ [b])

@[simp] theorem length_halfVector (r m : Nat) (b : Bool) : (halfVector r m b).length = 2 ^ m := length_votingVector ..

/-- Each half has weight `t + 1`. -/
theorem popcount_halfVector {r m : Nat} (hr : r < m) (b : Bool) : popcount (halfVector r m b) = strength r m + 1 := by
  have hshare := popcount_votingVector (m := m) (comp := List.range (r + 1)) (a := List.replicate r true ++ [b])
    List.nodup_range (fun i hi => (List.mem_range.mp hi).trans_le hr) (by simp)
  have hpow : 2 ^ m = 2 ^ (r + 1) * 2 ^ (m - r - 1) := by rw [← Nat.pow_add]; congr 1; omega
  have hpos : 0 < 2 ^ (m - r - 1) := Nat.two_pow_pos _
  rw [List.length_range, hpow] at hshare
  rw [strength, Nat.sub_add_cancel hpos]
  exact Nat.eq_of_mul_eq_mul_left (Nat.two_pow_pos _) hshare

theorem votingBit_half (r m : Nat) (b : Bool) (c : Nat) :
    votingBit m (List.range (r + 1)) (List.replicate r true ++ [b]) c =
      (evalBit m (List.range r) c && variableBit m r c == b) := by
  have hzip : (List.range (r + 1)).zip (List.replicate r true ++ [b]) =
      (List.range r).map (fun i => (i, true)) ++ [(r, b)] := by
    rw [List.range_succ, List.zip_append (by simp)]
    congr 1
    exact List.ext_getElem (by simp) fun i _ _ => by simp
  rw [votingBit, hzip, List.all_append, List.all_map, evalBit]
  simp [Function.comp_def]

theorem vxor_halfVector (r m : Nat) :
    vxor (evalVector m (List.range r)) (halfVector r m false) = halfVector r m true := by
  rw [evalVector, halfVector, halfVector, votingVector, votingVector, vxor_map_range]
  refine List.map_congr_left fun c _ => ?_
  rw [votingBit_half, votingBit_half]
  cases evalBit m (List.range r) c <;> cases variableBit m r c <;> rfl

/-- Settles O54: one half of a codeword is the zero codeword with the one half as error, and that codeword with the other, so
the decoder cannot be right about both. -/
theorem someErrorBeyondTheStrengthIsNotCorrected : Obligations.SomeErrorBeyondTheStrengthIsNotCorrected := by
  unfold Obligations.SomeErrorBeyondTheStrengthIsNotCorrected
  intro r m hr
  have hS : List.range r ∈ monomials r m := mem_monomials_of_mem_subsets (range_mem_subsets hr.le) le_rfl
  have hmsgLen : (monomialMessage r m (List.range r)).length = messageLength r m := by
    rw [monomialMessage, List.length_map, length_monomials hr.le]
  have hzero : encodeCore (buildTables r m) (2 ^ m) (zeros (messageLength r m)) = zeros (2 ^ m) := by
    rw [encodeCore_buildTables, polyVector_zeros]
  by_cases hdec : decodeCore (buildTables r m) r (2 ^ m) (halfVector r m true) = .decoded (zeros (messageLength r m))
  · refine ⟨monomialMessage r m (List.range r), halfVector r m false, hmsgLen, length_halfVector ..,
      popcount_halfVector hr _, ?_⟩
    rw [encodeCore_monomialMessage hS, vxor_halfVector, hdec, ne_eq, DecodeResult.decoded.injEq]
    exact (monomialMessage_ne_zeros hS _).symm
  · refine ⟨zeros (messageLength r m), halfVector r m true, length_zeros _, length_halfVector ..,
      popcount_halfVector hr _, ?_⟩
    rw [hzero, zeros_vxor (length_halfVector ..)]
    exact hdec

end Sys2Proof.Proofs

/-! PROOFS. The registers (10_state.md R23 to R28, R35; 40_builder.md R114 to R119): their fields, what the accessors return,
and CONSTRUCT. -/

namespace Sys2Proof.Proofs

open Sys2Proof.Machine

/-! ## Fields -/

theorem toNat_append_eq {w n : Nat} (x : BitVec w) (y : BitVec n) : (x ++ y).toNat = 2 ^ n * x.toNat + y.toNat := by
  rw [BitVec.toNat_append, ← Nat.shiftLeft_add_eq_or_of_lt y.isLt, Nat.shiftLeft_eq, Nat.mul_comm]

/-- A word is made of its fields. -/
theorem toNat_statusWord (code : BitVec 4) (busy : Bool) :
    (statusWord code busy).toNat = 2 ^ 8 * busy.toNat + code.toNat := by
  rw [statusWord, toNat_append_eq, toNat_append_eq, toNat_append_eq, BitVec.toNat_ofBool]
  simp only [BitVec.toNat_ofNat]
  omega

theorem toNat_cfg_word (g : Cfg) : g.word.toNat = 2 ^ 31 * g.valid.toNat + 2 ^ 8 * g.m.toNat + g.r.toNat := by
  rw [Cfg.word, toNat_append_eq, toNat_append_eq, toNat_append_eq, BitVec.toNat_ofBool]
  simp only [BitVec.toNat_ofNat]
  omega

theorem extractLsb'_eq_iff {w : Nat} (v : BitVec w) (lo len : Nat) (x : BitVec len) :
    v.extractLsb' lo len = x ↔ v.toNat / 2 ^ lo % 2 ^ len = x.toNat := by
  rw [← BitVec.toNat_inj, BitVec.extractLsb'_toNat, Nat.shiftRight_eq_div_pow]

theorem getLsbD_eq_iff {w : Nat} (v : BitVec w) (i : Nat) (b : Bool) :
    v.getLsbD i = b ↔ v.toNat / 2 ^ i % 2 = b.toNat := by
  rw [BitVec.getLsbD, Nat.testBit_eq_decide_div_mod_eq]
  rcases Nat.mod_two_eq_zero_or_one (v.toNat / 2 ^ i) with h | h <;> cases b <;> simp [h]

theorem statusWord_fields (code : BitVec 4) (busy : Bool) :
    (statusWord code busy).extractLsb' 0 4 = code ∧ (statusWord code busy).extractLsb' 4 4 = 0#4 ∧
      (statusWord code busy).getLsbD 8 = busy ∧ (statusWord code busy).extractLsb' 9 23 = 0#23 := by
  have hcode := code.isLt
  have hbusy := busy.toNat_lt
  simp only [extractLsb'_eq_iff, getLsbD_eq_iff, toNat_statusWord, BitVec.toNat_ofNat]
  omega

theorem cfg_word_fields (g : Cfg) : g.word.extractLsb' 0 8 = g.r ∧ g.word.extractLsb' 8 8 = g.m ∧
    g.word.extractLsb' 16 15 = 0#15 ∧ g.word.getLsbD 31 = g.valid := by
  have hr := g.r.isLt
  have hm := g.m.isLt
  have hvalid := g.valid.toNat_lt
  simp only [extractLsb'_eq_iff, getLsbD_eq_iff, toNat_cfg_word, BitVec.toNat_ofNat]
  omega

theorem toNat_capsReg (s : State) : s.capsReg.toNat = s.cap.mMax := by
  have hle := s.cap.le
  rw [State.capsReg, BitVec.toNat_ofNat, Nat.mod_eq_of_lt (by omega)]

/-- Settles O23: the fields of the words as they are put together. -/
theorem registerFieldsStandInTheirPlaces : Obligations.RegisterFieldsStandInTheirPlaces := by
  unfold Obligations.RegisterFieldsStandInTheirPlaces
  exact ⟨cfg_word_fields, fun x => statusWord_fields x.result.code x.busy, toNat_capsReg, by decide⟩

/-! ## N, K and T -/

/-- T is 0 exactly for the codes with two votes a row (R119). -/
theorem strength_eq_zero_iff {r m : Nat} (h : r < m) : strength r m = 0 ↔ r = m - 1 := by
  rw [strength]
  constructor
  · intro hzero
    by_contra hne
    have htwo : 2 ^ 1 ≤ 2 ^ (m - r - 1) := Nat.pow_le_pow_right (by decide) (by omega)
    omega
  · intro heq
    rw [show m - r - 1 = 0 by omega]
    rfl

theorem toNat_tReg {s : State} (hcfg : s.CfgLegal) (hvalid : s.cfg.valid = true) :
    s.tReg.toNat = strength s.order s.vars := by
  have hle : strength s.order s.vars ≤ s.codeLen :=
    (Nat.sub_le _ _).trans (Nat.pow_le_pow_right (by decide) (by omega))
  rw [State.tReg, if_pos hvalid, BitVec.toNat_ofNat, Nat.mod_eq_of_lt (hle.trans_lt (codeLen_lt hcfg hvalid))]

/-- Settles O22: the registers of a legal CFG hold the parameters without loss. -/
theorem parametersFitTheirRegisters : Obligations.ParametersFitTheirRegisters := by
  unfold Obligations.ParametersFitTheirRegisters
  intro s hcfg hvalid
  have hle : s.order ≤ s.vars := order_le_vars hcfg hvalid
  have hn := toNat_nReg hcfg hvalid
  have hk := toNat_kReg hcfg hvalid
  have ht := toNat_tReg hcfg hvalid
  refine ⟨hn, hk.trans (messageLength_eq_sum_choose hle), ht, ?_, ?_, ?_⟩
  · rw [hk]
    exact messageLength_pos hle
  · rw [hk, hn]
    exact messageLength_le_blockLength hle
  · rw [← BitVec.toNat_inj, ht]
    exact strength_eq_zero_iff (hcfg.1 hvalid).1

/-! ## The accessors -/

theorem hostRead_of_idle {s : State} (h : s.status.busy = false) (loc : Location) :
    hostRead loc s = { s with rdata := s.valueAt loc } := by simp [hostRead, h]

theorem hostRead_of_busy {s : State} (h : s.status.busy = true) (loc : Location) :
    hostRead loc s = { s with rdata := busyValue loc (Config.freeWord s.draws), draws := s.draws + 1 } := by
  simp [hostRead, h]

/-- Settles O20: each accessor is a host read of its register. -/
theorem accessorsReturnTheParameters : Obligations.AccessorsReturnTheParameters := by
  unfold Obligations.AccessorsReturnTheParameters
  intro s hidle hcfg
  refine ⟨congrArg _ (hostRead_of_idle hidle .n), ?_, congrArg _ (hostRead_of_idle hidle .t)⟩
  have hk : s.kReg = if s.cfg.valid then BitVec.ofNat 32 (∑ i ∈ Finset.range (s.order + 1), s.vars.choose i) else 0#32 := by
    rw [State.kReg]
    refine if_ctx_congr Iff.rfl (fun hvalid => ?_) fun _ => rfl
    rw [State.msgLen, messageLength_eq_sum_choose (order_le_vars hcfg hvalid)]
  rw [← hk]
  exact congrArg _ (hostRead_of_idle hidle .k)

/-- Settles O21: each accessor is a host read of a register other than STATUS. -/
theorem accessorsWhileBusyReturnAFreeDraw : Obligations.AccessorsWhileBusyReturnAFreeDraw := by
  unfold Obligations.AccessorsWhileBusyReturnAFreeDraw
  intro s i hbusy hacc
  cases i with
  | construct r m => cases hacc
  | encode => cases hacc
  | decode => cases hacc
  | blockLength => exact congrArg _ (hostRead_of_busy hbusy .n)
  | messageLength => exact congrArg _ (hostRead_of_busy hbusy .k)
  | strength => exact congrArg _ (hostRead_of_busy hbusy .t)

/-! ## CONSTRUCT -/

theorem exec_construct_of_paramsOk {s : State} {r m : Nat} (hr : r < m) (hm : m ≤ s.cap.mMax) :
    exec (.construct r m) s = .next (finish .constructed (install r m s)) :=
  if_pos (by simp [paramsOk, hr, hm])

/-- An accepted pair fits CFG's fields. -/
theorem install_order_vars {s : State} {r m : Nat} (hr : r < m) (hm : m ≤ s.cap.mMax) :
    (install r m s).order = r ∧ (install r m s).vars = m := by
  have hcap := s.cap.le
  simp only [State.order, State.vars, install_cfg, BitVec.toNat_ofNat]
  omega

/-- Settles O11: the pair is installed, and CFG's word is made of its fields. -/
theorem constructInstallsTheInstance : Obligations.ConstructInstallsTheInstance := by
  unfold Obligations.ConstructInstallsTheInstance
  intro s r m hr hm
  obtain ⟨horder, hvars⟩ := install_order_vars hr hm
  have hword : (install r m s).cfg.word.toNat = 2 ^ 31 + 2 ^ 8 * m + r := by
    rw [toNat_cfg_word]
    change 2 ^ 31 * 1 + 2 ^ 8 * (install r m s).vars + (install r m s).order = _
    rw [horder, hvars, Nat.mul_one]
  exact ⟨_, exec_construct_of_paramsOk hr hm, rfl, hword, rfl, horder, hvars⟩

end Sys2Proof.Proofs

/-! PROOFS. The commands that put out a vector (41_encode.md R142; 42_decode.md R157), and the one outcome of every command
(60_exceptions.md R188). -/

namespace Sys2Proof.Proofs

open Sys2Proof.Machine

/-! ## ENCODE and DECODE past their checks -/

/-- ENCODE past its checks puts out the codeword (R142). -/
theorem exec_encode_of_length_eq {s : State} (hvalid : s.cfg.valid = true) (hlen : s.inLen.toNat = s.msgLen) :
    exec .encode s = .next (finish .encoded (putOut s.codeLen (encodeCore s.tables s.codeLen (s.inputVec s.msgLen)) s)) :=
  (if_neg (by simp [hvalid])).trans (if_neg (not_not_intro hlen))

/-- DECODE past its checks, with a message decoded (R157). -/
theorem exec_decode_of_decoded {s : State} {w : Bits} (hvalid : s.cfg.valid = true) (hlen : s.inLen.toNat = s.codeLen)
    (hcore : decodeCore s.tables s.order s.codeLen (s.inputVec s.codeLen) = .decoded w) :
    exec .decode s = .next (finish .decoded (putOut s.msgLen w s)) := by
  rw [exec_decode_of_length_eq hvalid hlen, hcore]
  rfl

/-- A vector that fits the buffer reads back, with every bit beyond it 0. -/
theorem bit_writeVec_of_fits {c : Capacity} {v : Bits} (hfits : v.length ≤ c.nMax) (i : Nat) :
    (Buffer.writeVec c v).bit c i = (decide (i < v.length) && v.getD i false) := by
  rw [bit_writeVec]
  by_cases hi : i < v.length
  · simp [hi, hi.trans_le hfits]
  · simp [hi]

/-- What ENCODE and DECODE have in common when they succeed (R33, R34). -/
theorem answeredWith_putOut (code : Result) {v : Bits} {s : State} (hfits : v.length ≤ s.cap.nMax) :
    AnsweredWith code v.length v s (finish code (putOut v.length v s)) :=
  ⟨rfl, bit_writeVec_of_fits hfits⟩

section WithInstance

variable {s : State} (hcfg : s.CfgLegal) (hvalid : s.cfg.valid = true)
include hcfg hvalid

theorem codeLen_le_nMax : s.codeLen ≤ s.cap.nMax := Nat.pow_le_pow_right (by decide) (hcfg.1 hvalid).2

theorem msgLen_le_codeLen : s.msgLen ≤ s.codeLen := messageLength_le_blockLength (order_le_vars hcfg hvalid)

end WithInstance

theorem tables_of_valid {s : State} (htables : s.TablesMatch) (hvalid : s.cfg.valid = true) :
    s.tables = buildTables s.order s.vars := htables.trans (if_pos hvalid)

/-- Settles O13: ENCODE past its checks, on the tables of CFG. -/
theorem encodePutsOutTheCodeword : Obligations.EncodePutsOutTheCodeword := by
  unfold Obligations.EncodePutsOutTheCodeword
  intro s hcfg htables hvalid hlen
  have hexec := exec_encode_of_length_eq hvalid ((inLen_toNat_eq_msgLen_iff hcfg hvalid).mpr hlen)
  rw [tables_of_valid htables hvalid] at hexec
  rw [toNat_kReg hcfg hvalid]
  refine ⟨_, hexec, ?_⟩
  have hanswer := answeredWith_putOut (s := s) .encoded
    (v := encodeCore (buildTables s.order s.vars) s.codeLen (s.inputVec s.msgLen))
    (by rw [length_encodeCore]; exact codeLen_le_nMax hcfg hvalid)
  rw [length_encodeCore] at hanswer
  exact hanswer

/-- Settles O14: DECODE past its checks; a decoded message has as many elements as the code has rows. -/
theorem decodePutsOutTheMessage : Obligations.DecodePutsOutTheMessage := by
  unfold Obligations.DecodePutsOutTheMessage
  intro s w hcfg htables hvalid hlen hcore
  have hw : w.length = s.msgLen := length_of_decodeCore (hcfg.1 hvalid).1 hcore
  rw [toNat_nReg hcfg hvalid, ← tables_of_valid htables hvalid] at hcore
  have hexec := exec_decode_of_decoded hvalid ((inLen_toNat_eq_codeLen_iff hcfg hvalid).mpr hlen) hcore
  have hanswer := answeredWith_putOut (s := s) .decoded (v := w)
    (hw.trans_le ((msgLen_le_codeLen hcfg hvalid).trans (codeLen_le_nMax hcfg hvalid)))
  rw [hw] at hanswer
  rw [toNat_kReg hcfg hvalid]
  exact ⟨hw, _, hexec, hanswer⟩

/-! ## What the commands read -/

theorem readVec_congr {c : Capacity} {a b : Buffer} {len : Nat} (h : ∀ i < len, a.bit c i = b.bit c i) :
    a.readVec c len = b.readVec c len :=
  List.map_congr_left fun i hi => h i (List.mem_range.mp hi)

theorem reportDecoded_inData (res : DecodeResult) (s : State) (b : Buffer) :
    reportDecoded res { s with inData := b } = { reportDecoded res s with inData := b } := by
  cases res <;> rfl

/-- Settles O18: the answers differ in the input vector alone, which is the same. -/
theorem commandsIgnoreBitsBeyondTheVector : Obligations.CommandsIgnoreBitsBeyondTheVector := by
  unfold Obligations.CommandsIgnoreBitsBeyondTheVector
  intro s b hvalid
  constructor
  · intro hsame
    by_cases hlen : s.inLen.toNat = s.msgLen
    · have hvec : ({ s with inData := b } : State).inputVec s.msgLen = s.inputVec s.msgLen := readVec_congr hsame
      refine ⟨_, exec_encode_of_length_eq hvalid hlen,
        (exec_encode_of_length_eq (s := { s with inData := b }) hvalid hlen).trans ?_⟩
      change Host.Outcome.next (finish .encoded (putOut s.codeLen (encodeCore s.tables s.codeLen
        (({ s with inData := b } : State).inputVec s.msgLen)) { s with inData := b })) = _
      rw [hvec]
      rfl
    · exact ⟨_, exec_encode_of_length_ne hvalid hlen, exec_encode_of_length_ne (s := { s with inData := b }) hvalid hlen⟩
  · intro hsame
    by_cases hlen : s.inLen.toNat = s.codeLen
    · have hvec : ({ s with inData := b } : State).inputVec s.codeLen = s.inputVec s.codeLen := readVec_congr hsame
      refine ⟨_, exec_decode_of_length_eq hvalid hlen,
        (exec_decode_of_length_eq (s := { s with inData := b }) hvalid hlen).trans ?_⟩
      rw [← reportDecoded_inData, ← hvec]
      rfl
    · exact ⟨_, exec_decode_of_length_ne hvalid hlen, exec_decode_of_length_ne (s := { s with inData := b }) hvalid hlen⟩

end Sys2Proof.Proofs

/-! PROOFS. The one outcome of every command (60_exceptions.md R188), and a message through ENCODE, a disturbed copy and DECODE
(42_decode.md R159). -/

namespace Sys2Proof.Proofs

open Sys2Proof.Machine

/-! ## The outcomes -/

section Outcome

variable {s : State} (hcfg : s.CfgLegal)

/-- R188 for CONSTRUCT. -/
theorem exec_construct_outcome (r m : Nat) (s : State) : ∃ t, exec (.construct r m) s = .next t ∧ t.status.busy = false ∧
    t.status.result = if m ≤ r ∨ s.cap.mMax < m then .paramError else .constructed := by
  by_cases hparams : m ≤ r ∨ s.cap.mMax < m
  · exact ⟨_, exec_construct_of_not_paramsOk hparams, rfl, (if_pos hparams).symm⟩
  · exact ⟨_, exec_construct_of_paramsOk (by omega) (by omega), rfl, (if_neg hparams).symm⟩

include hcfg

/-- R188 for ENCODE. -/
theorem exec_encode_outcome : ∃ t, exec .encode s = .next t ∧ t.status.busy = false ∧ t.status.result =
    if s.cfg.valid = false then .notConstructed else if s.inLen ≠ s.kReg then .lengthError else .encoded := by
  cases hvalid : s.cfg.valid with
  | false => exact ⟨_, exec_encode_of_not_valid hvalid, rfl, rfl⟩
  | true =>
    have hiff := inLen_toNat_eq_msgLen_iff hcfg hvalid
    by_cases hlen : s.inLen = s.kReg
    · exact ⟨_, exec_encode_of_length_eq hvalid (hiff.mpr hlen), rfl, by simp [hlen]⟩
    · exact ⟨_, exec_encode_of_length_ne hvalid (mt hiff.mp hlen), rfl, by simp [hlen]⟩

/-- R188 for DECODE. -/
theorem exec_decode_outcome : ∃ t, exec .decode s = .next t ∧ t.status.busy = false ∧ t.status.result =
    if s.cfg.valid = false then .notConstructed else if s.inLen ≠ s.nReg then .lengthError
    else if decodeCore s.tables s.order (2 ^ s.vars) (s.inData.readVec s.cap s.nReg.toNat) = .ambiguous then .ambiguous
    else .decoded := by
  cases hvalid : s.cfg.valid with
  | false => exact ⟨_, exec_decode_of_not_valid hvalid, rfl, rfl⟩
  | true =>
    have hiff := inLen_toNat_eq_codeLen_iff hcfg hvalid
    by_cases hlen : s.inLen = s.nReg
    · rw [toNat_nReg hcfg hvalid]
      cases hcore : decodeCore s.tables s.order (2 ^ s.vars) (s.inData.readVec s.cap s.codeLen) with
      | ambiguous => exact ⟨_, exec_decode_of_ambiguous hvalid (hiff.mpr hlen) hcore, rfl, by simp [hlen]⟩
      | decoded w => exact ⟨_, exec_decode_of_decoded hvalid (hiff.mpr hlen) hcore, rfl, by simp [hlen]⟩
    · exact ⟨_, exec_decode_of_length_ne hvalid (mt hiff.mp hlen), rfl, by simp [hlen]⟩

end Outcome

/-- Settles O19: the word's legality, then each command's own outcomes. -/
theorem everyCommandHasItsOneOutcome : Obligations.EveryCommandHasItsOneOutcome := by
  unfold Obligations.EveryCommandHasItsOneOutcome
  intro s hcfg
  by_cases hillegal : legalWord s.latch = false
  · rw [if_pos hillegal]
    exact ⟨_, completionStep_of_not_legalWord hillegal, rfl, rfl⟩
  · rw [if_neg hillegal]
    obtain ⟨i, hdec⟩ := (exists_decodeCommand_eq_ok_iff s.latch).mpr (by simpa using hillegal)
    rw [completionStep_of_decodeCommand_eq_ok hdec]
    rcases (decodeCommand_eq_ok_iff s.latch i).mp hdec with ⟨hop, -, rfl⟩ | ⟨hop, hrest, rfl⟩ | ⟨hop, hrest, rfl⟩
    · have hfield : s.latch.extractLsb' 0 8 = 0x01#8 := hop
      rw [if_pos hfield]
      exact exec_construct_outcome _ _ s
    · have hword : s.latch = 0x00000002#32 := eq_of_plain hop hrest
      rw [hword, if_neg (by decide), if_pos rfl]
      exact exec_encode_outcome hcfg
    · have hword : s.latch = 0x00000003#32 := eq_of_plain hop hrest
      rw [hword, if_neg (by decide), if_neg (by decide : (0x00000003#32 : Word) ≠ 0x00000002#32)]
      exact exec_decode_outcome hcfg

/-! ## States with one CFG -/

section SameCfg

variable {s t : State} (hcfg : t.cfg = s.cfg)
include hcfg

theorem order_congr : t.order = s.order := by rw [State.order, State.order, hcfg]

theorem vars_congr : t.vars = s.vars := by rw [State.vars, State.vars, hcfg]

theorem nReg_congr : t.nReg = s.nReg := by
  rw [State.nReg, State.nReg, State.codeLen, State.codeLen, vars_congr hcfg, hcfg]

theorem kReg_congr : t.kReg = s.kReg := by
  rw [State.kReg, State.kReg, State.msgLen, State.msgLen, order_congr hcfg, vars_congr hcfg, hcfg]

theorem cfgLegal_congr (hcap : t.cap = s.cap) : t.CfgLegal ↔ s.CfgLegal := by
  rw [State.CfgLegal, State.CfgLegal, order_congr hcfg, vars_congr hcfg, hcfg, hcap]

theorem tablesMatch_congr (htables : t.tables = s.tables) : t.TablesMatch ↔ s.TablesMatch := by
  rw [State.TablesMatch, State.TablesMatch, order_congr hcfg, vars_congr hcfg, hcfg, htables]

end SameCfg

/-! ## A message through the block -/

theorem readVec_eq_of_bit {c : Capacity} {b : Buffer} {v : Bits} (h : ∀ i < v.length, b.bit c i = v.getD i false) :
    b.readVec c v.length = v := by
  rw [Buffer.readVec, List.map_congr_left fun i hi => h i (List.mem_range.mp hi), map_range_getD]

/-- What has been put out reads back. -/
theorem readVec_of_answeredWith {code : Result} {len : Nat} {v : Bits} {s t : State} (h : AnsweredWith code len v s t)
    (hlen : v.length = len) : t.outData.readVec s.cap len = v := by
  subst hlen
  exact readVec_eq_of_bit fun i hi => by rw [h.2 i, decide_eq_true hi, Bool.true_and]

/-- What ENCODE leaves for the host to carry over. -/
theorem exec_encode_output {s t : State} (hcfg : s.CfgLegal) (htables : s.TablesMatch) (hvalid : s.cfg.valid = true)
    (hlen : s.inLen = s.kReg) (h : exec .encode s = .next t) :
    t.cap = s.cap ∧ t.cfg = s.cfg ∧ t.tables = s.tables ∧ t.outLen = s.nReg ∧
      t.outData.readVec t.cap t.outLen.toNat =
        encodeCore (buildTables s.order s.vars) (2 ^ s.vars) (s.inData.readVec s.cap s.inLen.toNat) := by
  obtain ⟨t', ht', hanswer⟩ := encodePutsOutTheCodeword s hcfg htables hvalid hlen
  obtain rfl : t' = t := Host.Outcome.next.inj (ht'.symm.trans h)
  have hcap : t'.cap = s.cap := by rw [hanswer.1]
  have hout : t'.outLen = s.nReg := by
    rw [hanswer.1, State.nReg, if_pos hvalid]
    rfl
  refine ⟨hcap, by rw [hanswer.1], by rw [hanswer.1], hout, ?_⟩
  rw [hcap, hout, toNat_nReg hcfg hvalid, hlen]
  exact readVec_of_answeredWith hanswer (length_encodeCore ..)

/-- What DECODE leaves when the decoder gives a message. -/
theorem exec_decode_output {s : State} {w : Bits} (hcfg : s.CfgLegal) (htables : s.TablesMatch) (hvalid : s.cfg.valid = true)
    (hlen : s.inLen = s.nReg) (hcore : decodeCore (buildTables s.order s.vars) s.order (2 ^ s.vars)
      (s.inData.readVec s.cap s.inLen.toNat) = .decoded w) :
    ∃ t, exec .decode s = .next t ∧ t.status = ⟨.decoded, false⟩ ∧ t.outLen = s.kReg ∧
      t.outData.readVec t.cap t.outLen.toNat = w := by
  rw [hlen] at hcore
  obtain ⟨hw, t, ht, hanswer⟩ := decodePutsOutTheMessage s w hcfg htables hvalid hlen hcore
  have hcap : t.cap = s.cap := by rw [hanswer.1]
  have hout : t.outLen = s.kReg := by
    rw [hanswer.1]
    exact BitVec.ofNat_toNat 32 s.kReg
  refine ⟨t, ht, by rw [hanswer.1], hout, ?_⟩
  rw [hcap, hout]
  exact readVec_of_answeredWith hanswer hw

/-- Settles O58: ENCODE's output, O53 on the disturbed codeword, and DECODE's output. -/
theorem blockCorrectsUpToStrengthErrors : Obligations.BlockCorrectsUpToStrengthErrors := by
  unfold Obligations.BlockCorrectsUpToStrengthErrors
  intro s s1 s2 err hcfg htables hvalid hlen hencode hcap2 hcfg2 htables2 hlen2 herr hweight hreceived
  obtain ⟨hcap1, hcfg1, htables1, hout1, hcode⟩ := exec_encode_output hcfg htables hvalid hlen hencode
  have hcfgs : s2.cfg = s.cfg := hcfg2.trans hcfg1
  have hcfgLegal : s2.CfgLegal := (cfgLegal_congr hcfgs (hcap2.trans hcap1)).mpr hcfg
  have htablesMatch : s2.TablesMatch := (tablesMatch_congr hcfgs (htables2.trans htables1)).mpr htables
  have hin2 : s2.inLen = s2.nReg := by rw [hlen2, hout1, nReg_congr hcfgs]
  have hmsg : (s.inData.readVec s.cap s.inLen.toNat).length = messageLength s.order s.vars := by
    rw [length_readVec, hlen, toNat_kReg hcfg hvalid]
    rfl
  have herrLen : err.length = 2 ^ s.vars := by
    rw [herr, hout1, toNat_nReg hcfg hvalid]
    rfl
  have hdec : decodeCore (buildTables s2.order s2.vars) s2.order (2 ^ s2.vars)
      (s2.inData.readVec s2.cap s2.inLen.toNat) = .decoded (s.inData.readVec s.cap s.inLen.toNat) := by
    rw [hreceived, hcode, order_congr hcfgs, vars_congr hcfgs]
    exact upToStrengthErrorsAreCorrected _ _ _ err (hcfg.1 hvalid).1 hmsg herrLen (toNat_tReg hcfg hvalid ▸ hweight)
  obtain ⟨s3, hs3, hstatus, hout3, hread⟩ := exec_decode_output hcfgLegal htablesMatch (hcfgs ▸ hvalid) hin2 hdec
  exact ⟨s3, hs3, hstatus, hout3.trans ((kReg_congr hcfgs).trans hlen.symm), hread⟩

end Sys2Proof.Proofs

/-! PROOFS. The host interface (20_memory.md R50 to R59; 70_reset_and_hazards.md R204): the address map, reads and writes, and
which accesses have a step. -/

namespace Sys2Proof.Proofs

open Sys2Proof.Machine

/-! ## Steps of the host -/

theorem admissible_of_aligned {a : Word} (h : a.toNat % 4 = 0) : admissible a 4 = true := (admissible_iff a 4).mpr ⟨rfl, h⟩

theorem step_read {s : State} {rest : List Input} {a : Word} (hin : s.inputs = .access (.read a 4) :: rest)
    (ha : a.toNat % 4 = 0) : step s = .next (hostRead (locate s.cap a) { s with inputs := rest }) :=
  (step_cons hin).trans (hostAccess_read { s with inputs := rest } (admissible_of_aligned ha))

theorem step_write {s : State} {rest : List Input} {a v : Word} (hin : s.inputs = .access (.write a 4 v) :: rest)
    (ha : a.toNat % 4 = 0) (hidle : s.status.busy = false) :
    step s = .next (hostWrite (locate s.cap a) v { s with inputs := rest }) :=
  (step_cons hin).trans (hostAccess_write (s := { s with inputs := rest }) (admissible_of_aligned ha) hidle)

/-- Settles O27: the first check of a host access. -/
theorem misalignedOrNarrowAccessIsRefused : Obligations.MisalignedOrNarrowAccessIsRefused := by
  unfold Obligations.MisalignedOrNarrowAccessIsRefused
  intro s rest a v width hbad
  have hrefused : admissible a width = false :=
    Bool.eq_false_iff.mpr fun h => by have := (admissible_iff a width).mp h; omega
  exact ⟨fun hin => (step_cons hin).trans (if_pos hrefused), fun hin => (step_cons hin).trans (if_pos hrefused)⟩

theorem hostAccess_next_iff (acc : HostAccess) (s : State) : (∃ t, hostAccess acc s = .next t) ↔ s.Admits (.access acc) := by
  constructor
  · rintro ⟨t, ht⟩
    rcases hostAccess_cases ht with ⟨a, width, rfl, ha, -⟩ | ⟨a, width, v, rfl, ha, hidle, -⟩
    · exact ha
    · exact ⟨ha, hidle⟩
  · intro h
    cases acc with
    | read a width => exact ⟨_, hostAccess_read s h⟩
    | write a width v => exact ⟨_, hostAccess_write h.1 h.2⟩

/-- The sequencer's turn always has a step. -/
theorem exists_sequencerTurn (s : State) : ∃ t, sequencerTurn s = .next t := by
  rw [sequencerTurn]
  split
  · obtain ⟨t, ht, -⟩ := completionStep_own_fields s s.rdata s.draws s.inputs
    exact ⟨t, ht⟩
  · exact ⟨s, rfl⟩

/-- Settles O29: the sequencer and reset always have a step, a host access when it is admitted. -/
theorem onlyTheHostCanStopTheMachine : Obligations.OnlyTheHostCanStopTheMachine := by
  unfold Obligations.OnlyTheHostCanStopTheMachine
  intro s
  cases hin : s.inputs with
  | nil =>
    rw [step_nil hin]
    exact iff_of_true (exists_sequencerTurn s) nofun
  | cons i rest =>
    have hhead : (∀ j rest', i :: rest = j :: rest' → s.Admits j) ↔ s.Admits i :=
      ⟨fun h => h i rest rfl, fun h j rest' heq => (List.cons.inj heq).1 ▸ h⟩
    rw [hhead, step_cons hin]
    cases i with
    | access acc => exact hostAccess_next_iff acc { s with inputs := rest }
    | sequencer => exact iff_of_true (exists_sequencerTurn _) trivial
    | reset => exact iff_of_true ⟨_, rfl⟩ trivial

/-! ## The address map -/

theorem locate_of_past_control {c : Capacity} {a : Word} (h : 0x024 ≤ a.toNat) (hlt : a.toNat < 0x40000000) :
    locate c a = .unmapped := by
  rw [locate, if_pos hlt, controlRegister]
  repeat rw [if_neg (by omega)]

theorem locate_of_past_inData {c : Capacity} {a : Word} (h : 0x40000000 + 4 * c.words ≤ a.toNat)
    (hlt : a.toNat < 0x80000000) : locate c a = .unmapped := by
  rw [locate, if_neg (by omega), if_pos hlt, if_neg (by omega)]

theorem locate_of_past_outData {c : Capacity} {a : Word} (h : 0x80000000 + 4 * c.words ≤ a.toNat) :
    locate c a = .unmapped := by
  rw [locate, if_neg (by omega), if_neg (by omega)]
  split
  · exact if_neg (by omega)
  · rfl

theorem valueAt_inputs (s : State) (rest : List Input) (loc : Location) :
    State.valueAt { s with inputs := rest } loc = s.valueAt loc := by
  cases loc <;> rfl

theorem step_read_of_idle {s : State} {rest : List Input} {a : Word} (hin : s.inputs = .access (.read a 4) :: rest)
    (ha : a.toNat % 4 = 0) (hidle : s.status.busy = false) :
    step s = .next { s with inputs := rest, rdata := s.valueAt (locate s.cap a) } := by
  rw [step_read hin ha, hostRead_of_idle (s := { s with inputs := rest }) hidle, valueAt_inputs]

theorem step_read_of_busy {s : State} {rest : List Input} {a : Word} (hin : s.inputs = .access (.read a 4) :: rest)
    (ha : a.toNat % 4 = 0) (hbusy : s.status.busy = true) : step s = .next
      { s with inputs := rest, rdata := busyValue (locate s.cap a) (Config.freeWord s.draws), draws := s.draws + 1 } := by
  rw [step_read hin ha, hostRead_of_busy (s := { s with inputs := rest }) hbusy]

/-- Settles O24: a read gives the value of the place the address names. -/
theorem readsFollowTheAddressMap : Obligations.ReadsFollowTheAddressMap := by
  unfold Obligations.ReadsFollowTheAddressMap
  intro s rest a hidle hin ha
  refine ⟨s.valueAt (locate s.cap a), step_read_of_idle hin ha hidle, ?_, ?_, ?_, ?_, ?_, ?_, ?_, ?_, ?_, fun h hlt => ?_,
    fun w hw h => ?_, fun h hlt => ?_, fun w hw h => ?_, fun h => ?_⟩
  iterate 9 (rintro rfl; rfl)
  · rw [locate_of_past_control h hlt]; rfl
  · rw [locate_inData hw h]; rfl
  · rw [locate_of_past_inData h hlt]; rfl
  · rw [locate_outData hw h]; rfl
  · rw [locate_of_past_outData h]; rfl

/-- Settles O25: a write does what the place the address names takes. -/
theorem writesReachOnlyCmdInLenAndInData : Obligations.WritesReachOnlyCmdInLenAndInData := by
  unfold Obligations.WritesReachOnlyCmdInLenAndInData
  intro s rest a v hidle hin ha
  rw [step_write hin ha hidle]
  refine ⟨fun h => ?_, fun h => ?_, fun w hw h => ?_, fun hcmd hlen hdata => ?_⟩
  · rw [locate_eq_cmd.mpr h]; rfl
  · rw [locate_eq_inLen.mpr h]; rfl
  · rw [locate_inData hw h]; rfl
  · rcases hostWrite_cases (locate s.cap a) v { s with inputs := rest } with ⟨h, -⟩ | ⟨h, -⟩ | ⟨w, h, -⟩ | h
    · exact absurd (locate_eq_cmd.mp h) hcmd
    · exact absurd (locate_eq_inLen.mp h) hlen
    · obtain ⟨hw, hle, heq⟩ := of_locate_eq_inData h
      omega
    · rw [h]

/-! ## The words of a buffer -/

theorem byteAt_setWord_same {c : Capacity} {b : Buffer} {w j : Nat} {v : Word} (hj : j < 4) :
    (b.setWord c w v).byteAt c (4 * w + j) = v.extractLsb' (8 * j) 8 &&& byteMask c (4 * w + j) := by
  rw [Buffer.setWord]
  match j, hj with
  | 0, _ => rw [byteAt_setByte_other _ _ (by omega), byteAt_setByte_other _ _ (by omega), byteAt_setByte_other _ _ (by omega),
      Nat.add_zero, byteAt_setByte_same]
  | 1, _ => rw [byteAt_setByte_other _ _ (by omega), byteAt_setByte_other _ _ (by omega), byteAt_setByte_same]
  | 2, _ => rw [byteAt_setByte_other _ _ (by omega), byteAt_setByte_same]
  | 3, _ => rw [byteAt_setByte_same]

theorem byteAt_setWord_other {c : Capacity} {b : Buffer} {w off : Nat} {v : Word} (h : off / 4 ≠ w) :
    (b.setWord c w v).byteAt c off = b.byteAt c off := by
  rw [Buffer.setWord, byteAt_setByte_other _ _ (by omega), byteAt_setByte_other _ _ (by omega),
    byteAt_setByte_other _ _ (by omega), byteAt_setByte_other _ _ (by omega)]

/-- Settles O26: a word's bit is a bit of one of its four bytes. -/
theorem bufferWordReadsBackAsWritten : Obligations.BufferWordReadsBackAsWritten := by
  unfold Obligations.BufferWordReadsBackAsWritten
  intro c b w w' v i hi
  rw [getLsbD_wordAt _ _ _ _ hi]
  split
  next heq =>
    have hbit : 8 * (i / 8) + i % 8 = i := by omega
    have hplace : 8 * (4 * w + i / 8) + i % 8 = 32 * w + i := by omega
    have hlt : i % 8 < 8 := by omega
    rw [heq, byteAt_setWord_same (by omega), BitVec.getLsbD_and, BitVec.getLsbD_extractLsb', getLsbD_byteMask, hbit, hplace]
    simp [hlt]
  next hne => rw [byteAt_setWord_other (by omega), getLsbD_wordAt _ _ _ _ hi]

end Sys2Proof.Proofs

/-! PROOFS. What a completion step leaves (60_exceptions.md R188), the busy protocol and progress (70_reset_and_hazards.md R203
to R205). -/

namespace Sys2Proof.Proofs

open Sys2Proof.Machine

/-! ## The outcomes of a completion step -/

/-- The states a completion step can leave, each with what it says of the state before. -/
inductive CompletionOutcome (s : State) : State → Prop where
  | illegalCommand : CompletionOutcome s (finish .illegalCommand s)
  | paramError : CompletionOutcome s (finish .paramError s)
  | constructed {r m : Nat} (hdec : decodeCommand s.latch = .ok (.construct r m)) (hr : r < m) (hm : m ≤ s.cap.mMax) :
      CompletionOutcome s (finish .constructed (install r m s))
  | cleared {i : Instr} (hdec : decodeCommand s.latch = .ok i) (hi : i = .encode ∨ i = .decode) {code : Result}
      (hcode : code = .notConstructed ∧ s.cfg.valid = false ∨
        (code = .lengthError ∨ code = .ambiguous) ∧ s.cfg.valid = true) : CompletionOutcome s (failClearing code s)
  | encoded (hdec : decodeCommand s.latch = .ok .encode) (hvalid : s.cfg.valid = true) :
      CompletionOutcome s (finish .encoded (putOut s.codeLen (encodeCore s.tables s.codeLen (s.inputVec s.msgLen)) s))
  | decoded (hdec : decodeCommand s.latch = .ok .decode) (hvalid : s.cfg.valid = true) {w : Bits}
      (hcore : decodeCore s.tables s.order s.codeLen (s.inputVec s.codeLen) = .decoded w) :
      CompletionOutcome s (finish .decoded (putOut s.msgLen w s))

theorem completionOutcome_of_completionStep {s t : State} (h : completionStep s = .next t) : CompletionOutcome s t := by
  rcases completionStep_cases s with ⟨-, heq⟩ | ⟨r, m, hdec, heq⟩ | ⟨hdec, heq⟩ | ⟨hdec, heq⟩
  · obtain rfl := Host.Outcome.next.inj (heq.symm.trans h)
    exact .illegalCommand
  · rw [heq] at h
    rcases execConstruct_cases r m s with ⟨hr, hm, hx⟩ | ⟨-, hx⟩
    · obtain rfl := Host.Outcome.next.inj (hx.symm.trans h)
      exact .constructed hdec hr hm
    · obtain rfl := Host.Outcome.next.inj (hx.symm.trans h)
      exact .paramError
  · rw [heq] at h
    rcases execEncode_cases s with ⟨hvalid, hx⟩ | ⟨hvalid, -, hx⟩ | ⟨hvalid, -, hx⟩
    · obtain rfl := Host.Outcome.next.inj (hx.symm.trans h)
      exact .cleared hdec (.inl rfl) (.inl ⟨rfl, hvalid⟩)
    · obtain rfl := Host.Outcome.next.inj (hx.symm.trans h)
      exact .cleared hdec (.inl rfl) (.inr ⟨.inl rfl, hvalid⟩)
    · obtain rfl := Host.Outcome.next.inj (hx.symm.trans h)
      exact .encoded hdec hvalid
  · rw [heq] at h
    rcases execDecode_cases s with ⟨hvalid, hx⟩ | ⟨hvalid, -, hx⟩ | ⟨hvalid, -, -, hx⟩ | ⟨hvalid, -, w, hcore, hx⟩
    · obtain rfl := Host.Outcome.next.inj (hx.symm.trans h)
      exact .cleared hdec (.inr rfl) (.inl ⟨rfl, hvalid⟩)
    · obtain rfl := Host.Outcome.next.inj (hx.symm.trans h)
      exact .cleared hdec (.inr rfl) (.inr ⟨.inl rfl, hvalid⟩)
    · obtain rfl := Host.Outcome.next.inj (hx.symm.trans h)
      exact .cleared hdec (.inr rfl) (.inr ⟨.inr rfl, hvalid⟩)
    · obtain rfl := Host.Outcome.next.inj (hx.symm.trans h)
      exact .decoded hdec hvalid hcore

/-- No command writes its inputs (R30 to R32). -/
theorem CompletionOutcome.inputs_kept {s t : State} (h : CompletionOutcome s t) :
    t.inLen = s.inLen ∧ t.inData = s.inData ∧ t.latch = s.latch := by cases h <;> exact ⟨rfl, rfl, rfl⟩

/-! ## The busy protocol -/

/-- Settles O28: a busy read uses up a draw; the completion step is the only other step but reset. -/
theorem busyProtocolHolds : Obligations.BusyProtocolHolds := by
  unfold Obligations.BusyProtocolHolds
  intro s rest a hbusy ha
  refine ⟨fun v hin => ?_, fun hin haddr => ?_, fun hin haddr => ?_, fun t hstep hreset => ?_⟩
  · exact (step_cons hin).trans ((if_neg (by simp [admissible_of_aligned ha])).trans (if_pos hbusy))
  · obtain ⟨hresult, hreserved, hshown, hhigh⟩ := statusWord_fields ((Config.freeWord s.draws).extractLsb' 0 4) true
    refine ⟨busyStatusWord (Config.freeWord s.draws), ?_, hshown, hreserved, hhigh, hresult⟩
    rw [step_read_of_busy hin ha hbusy, locate_eq_status.mpr haddr]
    rfl
  · rw [step_read_of_busy hin ha hbusy, busyValue, if_neg (mt locate_eq_status.mp haddr)]
  · rcases step_cases hstep with ⟨-, hidle, -⟩ | ⟨-, -, hdone⟩ | ⟨hhead, -⟩ | ⟨a', width, -, -, rfl⟩ |
      ⟨a', width, v, -, -, hidle, -⟩
    · simp [hbusy] at hidle
    · exact (completionOutcome_of_completionStep hdone).inputs_kept
    · exact absurd hhead hreset
    · simp [afterPop]
    · simp [hbusy] at hidle

/-! ## Progress -/

theorem run_succ {M : Host.Core} {s t : M.State} (h : M.step s = .next t) (k : Nat) : M.run (k + 1) s = M.run k t := by
  simp only [Host.Core.run, h]

theorem core_run_succ {s t : State} (h : step s = .next t) (k : Nat) : core.run (k + 1) s = core.run k t :=
  run_succ (M := core) h k

/-- Settles O30: each read leaves the command pending, and the sequencer's turn completes it. -/
theorem pendingCommandCompletesAfterFinitelyManyReads : Obligations.PendingCommandCompletesAfterFinitelyManyReads := by
  unfold Obligations.PendingCommandCompletesAfterFinitelyManyReads
  intro s reads rest hbusy hreads hin
  induction reads generalizing s with
  | nil =>
    obtain ⟨t, ht, hdone, -, -, hinputs, -⟩ := completionStep_own_fields { s with inputs := rest } s.rdata s.draws rest
    have hstep : step s = .next t := (sequencerStepRunsTheDecodedCommand s rest (.inl hin) hbusy).1.trans ht
    exact ⟨t, core_run_succ hstep 0, hdone, hinputs⟩
  | cons a reads ih =>
    obtain ⟨ha, hreads⟩ := List.forall_mem_cons.mp hreads
    have hstep := step_read_of_busy hin ha hbusy
    obtain ⟨t, hrun, hdone, hinputs⟩ := ih { s with
      inputs := reads.map (fun a => .access (.read a 4)) ++ .sequencer :: rest,
      rdata := busyValue (locate s.cap a) (Config.freeWord s.draws),
      draws := s.draws + 1 } hbusy hreads rfl
    exact ⟨t, (core_run_succ hstep _).trans hrun, hdone, hinputs⟩

end Sys2Proof.Proofs

/-! PROOFS. Whole-machine rules (10_state.md R23 to R40): what each kind of step can change, reset, and the invariant. -/

namespace Sys2Proof.Proofs

open Sys2Proof.Machine

/-! ## What changes what -/

/-- Settles O33: a completion step and reset clear BUSY, a write of CMD sets it, and no other step touches it. -/
theorem busyChangesOnlyByIssueCompletionOrReset : Obligations.BusyChangesOnlyByIssueCompletionOrReset := by
  unfold Obligations.BusyChangesOnlyByIssueCompletionOrReset
  intro s t hstep
  have hsame : t.status.busy = s.status.busy →
      (s.status.busy = false → t.status.busy = true →
        ∃ v, s.inputs.head? = some (.access (.write 0x000#32 4 v)) ∧ t.latch = v) ∧
      (s.status.busy = true → t.status.busy = false →
        s.inputs = [] ∨ s.inputs.head? = some .sequencer ∨ s.inputs.head? = some .reset) := fun hkept =>
    ⟨fun hidle hset => absurd (hidle.symm.trans (hkept.symm.trans hset)) nofun,
      fun hbusy hclear => absurd (hbusy.symm.trans (hkept.symm.trans hclear)) nofun⟩
  rcases step_cases hstep with ⟨-, -, rfl⟩ | ⟨hturn, hbusy, -⟩ | ⟨hhead, rfl⟩ | ⟨a, width, -, -, rfl⟩ |
    ⟨a, width, v, hhead, ha, hidle, rfl⟩
  · exact hsame rfl
  · exact ⟨fun hidle => absurd (hidle.symm.trans hbusy) nofun, fun _ _ => hturn.imp_right .inl⟩
  · exact ⟨fun _ => nofun, fun _ _ => .inr (.inr hhead)⟩
  · exact hsame (congrArg Status.busy (hostRead_status ..))
  · obtain ⟨rfl, -⟩ := (admissible_iff a width).mp ha
    rcases hostWrite_cases (locate s.cap a) v (afterPop s) with ⟨hloc, heq⟩ | ⟨-, heq⟩ | ⟨w, -, heq⟩ | heq
    · obtain rfl := locate_eq_cmd.mp hloc
      exact ⟨fun _ _ => ⟨v, hhead, by rw [heq]⟩, fun hbusy => absurd (hidle.symm.trans hbusy) nofun⟩
    · exact hsame (by rw [heq]; rfl)
    · exact hsame (by rw [heq]; rfl)
    · exact hsame (by rw [heq]; rfl)

/-- Settles O34: of the outcomes of a completion step only CONSTRUCTED touches CFG and TABLES. -/
theorem onlyConstructAndResetChangeTheInstance : Obligations.OnlyConstructAndResetChangeTheInstance := by
  unfold Obligations.OnlyConstructAndResetChangeTheInstance
  intro s t hstep hreset
  have hsame : t.cfg = s.cfg → t.tables = s.tables → t.cap = s.cap →
      (t.cfg ≠ s.cfg ∨ t.tables ≠ s.tables → s.status.busy = true ∧ t.status.result = .constructed ∧
        ∃ r m, decodeCommand s.latch = .ok (.construct r m) ∧ r < m ∧ m ≤ s.cap.mMax) ∧
      (s.cfg.valid = true → t.cfg.valid = true) ∧ t.cap = s.cap := fun hcfg htables hcap =>
    ⟨fun hne => absurd hne (not_or.mpr ⟨not_not_intro hcfg, not_not_intro htables⟩), fun h => hcfg ▸ h, hcap⟩
  rcases step_cases hstep with ⟨-, -, rfl⟩ | ⟨-, hbusy, hdone⟩ | ⟨hhead, -⟩ | ⟨a, width, -, -, rfl⟩ |
    ⟨a, width, v, -, -, -, rfl⟩
  · exact hsame rfl rfl rfl
  · cases completionOutcome_of_completionStep hdone with
    | illegalCommand => exact hsame rfl rfl rfl
    | paramError => exact hsame rfl rfl rfl
    | constructed hdec hr hm => exact ⟨fun _ => ⟨hbusy, rfl, _, _, hdec, hr, hm⟩, fun _ => rfl, rfl⟩
    | cleared => exact hsame rfl rfl rfl
    | encoded => exact hsame rfl rfl rfl
    | decoded => exact hsame rfl rfl rfl
  · exact absurd hhead hreset
  · exact hsame (hostRead_cfg ..) (hostRead_tables ..) (hostRead_cap ..)
  · exact hsame (hostWrite_cfg ..) (hostWrite_tables ..) (hostWrite_cap ..)

/-- Settles O35: no command writes its inputs, and a host write reaches them only at their own addresses. -/
theorem onlyHostWritesAndResetChangeTheInput : Obligations.OnlyHostWritesAndResetChangeTheInput := by
  unfold Obligations.OnlyHostWritesAndResetChangeTheInput
  intro s t hstep hreset
  rcases step_cases hstep with ⟨-, -, rfl⟩ | ⟨-, -, hdone⟩ | ⟨hhead, -⟩ | ⟨a, width, -, -, rfl⟩ |
    ⟨a, width, v, hhead, ha, -, rfl⟩
  · exact ⟨absurd rfl, absurd rfl⟩
  · obtain ⟨hlen, hdata, -⟩ := (completionOutcome_of_completionStep hdone).inputs_kept
    exact ⟨absurd hlen, absurd hdata⟩
  · exact absurd hhead hreset
  · exact ⟨absurd (hostRead_inLen ..), absurd (hostRead_inData ..)⟩
  · obtain ⟨rfl, -⟩ := (admissible_iff a width).mp ha
    rcases hostWrite_cases (locate s.cap a) v (afterPop s) with ⟨-, heq⟩ | ⟨hloc, heq⟩ | ⟨w, hloc, heq⟩ | heq
    · rw [heq]
      exact ⟨absurd rfl, absurd rfl⟩
    · obtain rfl := locate_eq_inLen.mp hloc
      rw [heq]
      exact ⟨fun _ => ⟨v, hhead, rfl⟩, absurd rfl⟩
    · obtain ⟨hw, hle, hplace⟩ := of_locate_eq_inData hloc
      rw [heq]
      exact ⟨absurd rfl, fun _ => ⟨a, v, hhead, hle, by omega⟩⟩
    · rw [heq]
      exact ⟨absurd rfl, absurd rfl⟩

/-- The words of the two commands that write the output. -/
theorem latch_of_decode_plain {v : Word} {i : Instr} (hdec : decodeCommand v = .ok i) (hi : i = .encode ∨ i = .decode) :
    v = 0x00000002#32 ∨ v = 0x00000003#32 := by
  obtain ⟨-, -, rfl⟩ := encodeOfDecodedCommandIsTheWord v i hdec
  exact hi.imp (congrArg encode) (congrArg encode)

/-- Settles O36: of all steps only a completion of ENCODE or DECODE touches the output. -/
theorem onlyEncodeDecodeAndResetChangeTheOutput : Obligations.OnlyEncodeDecodeAndResetChangeTheOutput := by
  unfold Obligations.OnlyEncodeDecodeAndResetChangeTheOutput
  intro s t hstep hreset hchange
  have hsame : t.outLen = s.outLen → t.outData = s.outData → False := fun hlen hdata =>
    hchange.elim (absurd hlen) (absurd hdata)
  rcases step_cases hstep with ⟨-, -, rfl⟩ | ⟨-, hbusy, hdone⟩ | ⟨hhead, -⟩ | ⟨a, width, -, -, rfl⟩ |
    ⟨a, width, v, -, -, -, rfl⟩
  · exact (hsame rfl rfl).elim
  · refine ⟨hbusy, ?_⟩
    cases completionOutcome_of_completionStep hdone with
    | illegalCommand => exact (hsame rfl rfl).elim
    | paramError => exact (hsame rfl rfl).elim
    | constructed => exact (hsame rfl rfl).elim
    | cleared hdec hi => exact latch_of_decode_plain hdec hi
    | encoded hdec => exact latch_of_decode_plain hdec (.inl rfl)
    | decoded hdec => exact latch_of_decode_plain hdec (.inr rfl)
  · exact absurd hhead hreset
  · exact (hsame (hostRead_outLen ..) (hostRead_outData ..)).elim
  · exact (hsame (hostWrite_outLen ..) (hostWrite_outData ..)).elim

/-! ## Reset -/

theorem word_no_pair : (⟨false, 0#8, 0#8⟩ : Cfg).word = 0#32 := by decide

theorem word_none_idle : (⟨.none, false⟩ : Status).word = 0#32 := by decide

/-- Settles O37: the reset event has one step, in any state. -/
theorem resetEventLeavesTheResetValues : Obligations.ResetEventLeavesTheResetValues := by
  unfold Obligations.ResetEventLeavesTheResetValues
  intro s rest hin
  exact ⟨_, step_cons hin, rfl, word_no_pair, word_none_idle, rfl, rfl, rfl, rfl, rfl, rfl, rfl⟩

/-- Settles O38: the fields of the reset state. -/
theorem resetStateHoldsTheResetValues : Obligations.ResetStateHoldsTheResetValues := by
  unfold Obligations.ResetStateHoldsTheResetValues
  exact ⟨word_no_pair, word_none_idle, rfl, rfl, rfl, rfl, rfl, rfl, toNat_capsReg _⟩

/-! ## The invariant -/

theorem outMatchesResult_congr {s t : State} (hcap : t.cap = s.cap) (hcfg : t.cfg = s.cfg)
    (hresult : t.status.result = s.status.result) (hlen : t.outLen = s.outLen) (hdata : t.outData = s.outData) :
    t.OutMatchesResult ↔ s.OutMatchesResult := by
  simp only [State.OutMatchesResult, State.OutClear, hcap, hcfg, hresult, hlen, hdata, nReg_congr hcfg, kReg_congr hcfg]

/-- The invariant speaks of no other field than these, and of IN_DATA only as a canonical buffer. -/
theorem inv_of_same {s t : State} (h : s.Inv) (hcap : t.cap = s.cap) (hcfg : t.cfg = s.cfg) (htables : t.tables = s.tables)
    (hresult : t.status.result = s.status.result) (hin : t.inData.wf s.cap = true) (hlen : t.outLen = s.outLen)
    (hdata : t.outData = s.outData) : t.Inv where
  cfgLegal := (cfgLegal_congr hcfg hcap).mpr h.cfgLegal
  tablesMatch := (tablesMatch_congr hcfg htables).mpr h.tablesMatch
  buffersWf := by
    rw [State.BuffersWf, hcap, hdata]
    exact ⟨hin, h.buffersWf.2⟩
  outMatchesResult := (outMatchesResult_congr hcap hcfg hresult hlen hdata).mpr h.outMatchesResult
  outPadded := by
    rw [State.OutPadded, hcap, hlen, hdata]
    exact h.outPadded

theorem inv_afterReset (c : Capacity) (k : Nat) : (State.afterReset c k).Inv where
  cfgLegal := ⟨nofun, fun _ => ⟨rfl, rfl⟩⟩
  tablesMatch := rfl
  buffersWf := ⟨wf_nil _ _, wf_nil _ _⟩
  outMatchesResult := ⟨rfl, rfl⟩
  outPadded := nofun

/-- Settles O39. -/
theorem resetStateMeetsTheInvariant : Obligations.ResetStateMeetsTheInvariant := inv_afterReset _ _

theorem inv_resetBlock (s : State) : (resetBlock s).Inv :=
  inv_of_same (inv_afterReset s.cap s.draws) rfl rfl rfl rfl (wf_nil _ _) rfl rfl

theorem inv_hostRead {s : State} (h : s.Inv) (loc : Location) : (hostRead loc s).Inv :=
  inv_of_same h (hostRead_cap ..) (hostRead_cfg ..) (hostRead_tables ..) (by rw [hostRead_status])
    (by rw [hostRead_inData]; exact h.buffersWf.1) (hostRead_outLen ..) (hostRead_outData ..)

theorem inv_hostWrite {s : State} (h : s.Inv) (loc : Location) (v : Word) : (hostWrite loc v s).Inv := by
  rcases hostWrite_cases loc v s with ⟨-, heq⟩ | ⟨-, heq⟩ | ⟨w, -, heq⟩ | heq
  · rw [heq]
    exact inv_of_same h rfl rfl rfl rfl h.buffersWf.1 rfl rfl
  · rw [heq]
    exact inv_of_same h rfl rfl rfl rfl h.buffersWf.1 rfl rfl
  · rw [heq]
    exact inv_of_same h rfl rfl rfl rfl (wf_setWord h.buffersWf.1 _ _) rfl rfl
  · rwa [heq]

/-- An outcome that says nothing of the output keeps the invariant. -/
theorem inv_finish {s : State} (h : s.Inv) {code : Result} (hmatch : (finish code s).OutMatchesResult) :
    (finish code s).Inv where
  cfgLegal := h.cfgLegal
  tablesMatch := h.tablesMatch
  buffersWf := h.buffersWf
  outMatchesResult := hmatch
  outPadded := h.outPadded

/-- An installed pair is legal, and its tables are built from it. -/
theorem inv_install {s : State} (h : s.Inv) {r m : Nat} (hr : r < m) (hm : m ≤ s.cap.mMax) :
    (finish .constructed (install r m s)).Inv := by
  obtain ⟨horder, hvars⟩ := install_order_vars hr hm
  refine ⟨⟨fun _ => ?_, nofun⟩, ?_, h.buffersWf, rfl, h.outPadded⟩
  · change (install r m s).order < (install r m s).vars ∧ (install r m s).vars ≤ s.cap.mMax
    rw [horder, hvars]
    exact ⟨hr, hm⟩
  · change buildTables r m = buildTables (install r m s).order (install r m s).vars
    rw [horder, hvars]

/-- A vector put out stands in a canonical buffer that is 0 beyond OUT_LEN. -/
theorem inv_finish_putOut {s : State} (h : s.Inv) {code : Result} {len : Nat} {v : Bits} (hlen : v.length = len)
    (hlt : len < 2 ^ 32) (hmatch : (finish code (putOut len v s)).OutMatchesResult) : (finish code (putOut len v s)).Inv := by
  refine ⟨h.cfgLegal, h.tablesMatch, ⟨h.buffersWf.1, wf_writeVec _ _⟩, hmatch, fun _ i hi => ?_⟩
  change (BitVec.ofNat 32 len).toNat ≤ i at hi
  rw [BitVec.toNat_ofNat, Nat.mod_eq_of_lt hlt] at hi
  change (Buffer.writeVec s.cap v).bit s.cap i = false
  simp [bit_writeVec, hlen, hi]

theorem outClear_failClearing (code : Result) (s : State) : (failClearing code s).OutClear := bit_cleared s.cap

/-- Every outcome of a completion step keeps the invariant. -/
theorem inv_of_completionOutcome {s t : State} (h : s.Inv) (ht : CompletionOutcome s t) : t.Inv := by
  cases ht with
  | illegalCommand => exact inv_finish h trivial
  | paramError => exact inv_finish h trivial
  | constructed _ hr hm => exact inv_install h hr hm
  | @cleared i _ _ code hcode =>
    refine inv_finish_putOut h (length_zeros 0) (by decide) ?_
    rcases hcode with ⟨rfl, hvalid⟩ | ⟨rfl | rfl, hvalid⟩
    all_goals exact ⟨hvalid, rfl, outClear_failClearing _ s⟩
  | encoded _ hvalid =>
    refine inv_finish_putOut h (length_encodeCore ..) (codeLen_lt h.cfgLegal hvalid) ⟨hvalid, ?_⟩
    exact (if_pos hvalid).symm
  | decoded _ hvalid hcore =>
    rw [tables_of_valid h.tablesMatch hvalid] at hcore
    have hw := length_of_decodeCore (h.cfgLegal.1 hvalid).1 hcore
    have hlt := (msgLen_le_codeLen h.cfgLegal hvalid).trans_lt (codeLen_lt h.cfgLegal hvalid)
    exact inv_finish_putOut h hw hlt ⟨hvalid, (if_pos hvalid).symm⟩

/-- Settles O40: by what a step can do. -/
theorem everyStepKeepsTheInvariant : Obligations.EveryStepKeepsTheInvariant := by
  unfold Obligations.EveryStepKeepsTheInvariant
  intro s t h hstep
  have hpop : (afterPop s).Inv := inv_of_same h rfl rfl rfl rfl h.buffersWf.1 rfl rfl
  rcases step_cases hstep with ⟨-, -, rfl⟩ | ⟨-, -, hdone⟩ | ⟨-, rfl⟩ | ⟨a, width, -, -, rfl⟩ | ⟨a, width, v, -, -, -, rfl⟩
  · exact hpop
  · exact inv_of_completionOutcome hpop (completionOutcome_of_completionStep hdone)
  · exact inv_resetBlock _
  · exact inv_hostRead hpop _
  · exact inv_hostWrite hpop _ _

end Sys2Proof.Proofs

/-! PROOFS. The host line `LOADV` (30_encoding.md R78; 20_memory.md R54): one write of the length and one for each word of the
vector. -/

namespace Sys2Proof.Proofs

open Sys2Proof.Machine

/-! ## Moves of the host -/

theorem move_host_of_line {h : HostRun} {l : HostLine} (hl : h.prog[h.pos]? = some l) : h.move .host = runLine h l := by
  simp only [HostRun.move, hl]

theorem moves_pair {h h₁ h₂ : HostRun} {t₁ t₂ : Turn} (hmove₁ : h.move t₁ = some h₁) (hmove₂ : h₁.move t₂ = some h₂) :
    h.moves [t₁, t₂] = some h₂ := by
  simp only [HostRun.moves, hmove₁, hmove₂, Option.bind_some]

/-- One more move at the end of a run. -/
theorem moves_replicate_succ {h h₁ h₂ : HostRun} {n : Nat} {t : Turn} (hmoves : h.moves (List.replicate n t) = some h₁)
    (hmove : h₁.move t = some h₂) : h.moves (List.replicate (n + 1) t) = some h₂ := by
  rw [List.replicate_succ', moves_append, hmoves, Option.bind_some, HostRun.moves, hmove]
  rfl

/-! ## Values on the bus -/

theorem ofInt_toNat (x : Word) : BitVec.ofInt 32 (x.toNat : Int) = x := by
  rw [BitVec.ofInt_natCast, BitVec.ofNat_toNat, BitVec.setWidth_eq]

theorem busWord_toNat (x : Word) : busWord (x.toNat : Int) = some x := by
  have hlt : (x.toNat : Int) < 2 ^ 32 := by exact_mod_cast x.isLt
  unfold busWord
  rw [if_pos ⟨Int.natCast_nonneg _, hlt⟩, ofInt_toNat]

theorem runLine_wr (h : HostRun) (a v : Int) : runLine h (.wr (.lit a) (.lit v)) = runWrite h a v := rfl

/-- A host line that writes a word, with no command pending. -/
theorem runLine_wr_toNat {h : HostRun} {a v : Word} (ha : a.toNat % 4 = 0) (hidle : h.block.status.busy = false) :
    runLine h (.wr (.lit a.toNat) (.lit v.toNat)) =
      some { h with
        block := hostWrite (locate h.block.cap a) v { h.block with inputs := [] }
        pos := h.pos + 1
        pending := h.pending || a == 0x000#32 } := by
  rw [runLine_wr, runWrite, busWord_toNat, busWord_toNat]
  simp only [blockAfter_write (admissible_of_aligned ha) hidle, Option.map_some]

/-- `Σ_b f(b) 2^b` over the first `n` bits. -/
theorem sum_bits_eq_ofBits (n : Nat) (f : Nat → Bool) :
    ((List.range n).map (fun b => if f b then (2 : Int) ^ b else 0)).sum = (Nat.ofBits fun b : Fin n => f b) := by
  induction n generalizing f with
  | zero => rfl
  | succ n ih =>
    have hshift : (List.range n).map ((fun b => if f b then (2 : Int) ^ b else 0) ∘ Nat.succ) =
        (List.range n).map (fun b => 2 * if f (b + 1) then (2 : Int) ^ b else 0) :=
      List.map_congr_left fun b _ => by simp [pow_succ']
    have hhead : (Nat.ofBits fun b : Fin (n + 1) => f b) = 2 * (Nat.ofBits fun b : Fin n => f (b + 1)) + (f 0).toNat :=
      Nat.ofBits_succ _
    rw [List.range_succ_eq_map, List.map_cons, List.sum_cons, List.map_map, hshift, List.sum_map_mul_left,
      ih (fun b => f (b + 1)), hhead]
    cases f 0 <;> simp [add_comm]

/-- Word `w` of a vector, as LOADV writes it. -/
def loadWord (v : Bits) (w : Nat) : Word := BitVec.ofNat 32 (Nat.ofBits fun b : Fin 32 => v.getD (32 * w + b) false)

theorem vecWord_eq_toNat (v : Bits) (w : Nat) : vecWord v w = ((loadWord v w).toNat : Int) := by
  rw [vecWord, sum_bits_eq_ofBits 32 fun b => v.getD (32 * w + b) false, loadWord, BitVec.toNat_ofNat,
    Nat.mod_eq_of_lt (Nat.ofBits_lt_two_pow _)]

theorem getLsbD_loadWord (v : Bits) (w : Nat) {i : Nat} (hi : i < 32) :
    (loadWord v w).getLsbD i = v.getD (32 * w + i) false := by
  rw [loadWord, BitVec.getLsbD_ofNat, decide_eq_true hi, Bool.true_and, Nat.testBit_ofBits_lt _ _ hi]

/-! ## The run -/

/-- The lines of `LOADV v`. -/
def loadProgram (v : Bits) : List HostLine := expandProgram 0 [.loadv v]

theorem length_loadProgram (v : Bits) : (loadProgram v).length = 1 + (v.length + 31) / 32 := by
  simp [loadProgram, expandProgram, HostMacro.expand, Nat.add_comm]

theorem loadProgram_getElem?_succ {v : Bits} {w : Nat} (hw : w < (v.length + 31) / 32) :
    (loadProgram v)[1 + w]? = some (.wr (.lit (0x40000000 + 4 * (w : Int))) (.lit (vecWord v w))) := by
  simp [loadProgram, expandProgram, HostMacro.expand, Nat.add_comm 1 w, hw]

/-- A run of `LOADV v` from `s` that has written the length and the first `k` words. -/
structure LoadedUpTo (s : State) (v : Bits) (k : Nat) (h : HostRun) : Prop where
  prog : h.prog = loadProgram v
  pos : h.pos = 1 + k
  pending : h.pending = false
  cap : h.block.cap = s.cap
  idle : h.block.status.busy = false
  inLen : h.block.inLen.toNat = v.length
  words : ∀ j < k, ∀ i < 32, (h.block.inData.wordAt s.cap j).getLsbD i =
    (v.getD (32 * j + i) false && decide (32 * j + i < s.cap.nMax))

theorem loadedUpTo_zero {s : State} {v : Bits} (hidle : s.status.busy = false) (hfits : v.length ≤ s.cap.nMax) :
    ∃ h, (HostRun.start s [.loadv v]).move .host = some h ∧ LoadedUpTo s v 0 h := by
  have hmax := nMax_le s.cap
  have hlen : (BitVec.ofNat 32 v.length).toNat = v.length := by
    rw [BitVec.toNat_ofNat, Nat.mod_eq_of_lt (by omega)]
  have hline : (HostRun.start s [.loadv v]).move .host = runLine (HostRun.start s [.loadv v])
      (.wr (.lit (0x018#32).toNat) (.lit (BitVec.ofNat 32 v.length).toNat)) := by
    rw [hlen]
    rfl
  rw [hline, runLine_wr_toNat (by decide) hidle, locate_eq_inLen.mpr rfl]
  exact ⟨_, rfl, rfl, rfl, rfl, rfl, hidle, hlen, nofun⟩

theorem LoadedUpTo.step {s : State} {v : Bits} {k : Nat} {h : HostRun} (hload : LoadedUpTo s v k h)
    (hk : k < (v.length + 31) / 32) (hfits : v.length ≤ s.cap.nMax) :
    ∃ h', h.move .host = some h' ∧ LoadedUpTo s v (k + 1) h' := by
  obtain ⟨hprog, hpos, hpending, hcap, hidle, hlen, hwords⟩ := hload
  have hbound := words_le s.cap
  have hword : k < s.cap.words := by rw [Capacity.words]; omega
  obtain ⟨a, ha⟩ : ∃ a : Word, a.toNat = 0x40000000 + 4 * k :=
    ⟨BitVec.ofNat 32 (0x40000000 + 4 * k), by rw [BitVec.toNat_ofNat, Nat.mod_eq_of_lt (by omega)]⟩
  have hline : h.move .host = runLine h (.wr (.lit a.toNat) (.lit (loadWord v k).toNat)) := by
    have hnext : h.prog[h.pos]? = some (.wr (.lit a.toNat) (.lit (loadWord v k).toNat)) := by
      rw [hprog, hpos, loadProgram_getElem?_succ hk, vecWord_eq_toNat, ha]
      push_cast
      rfl
    exact move_host_of_line hnext
  have hnot : (a == 0x000#32) = false := by
    rw [beq_eq_false_iff_ne, ne_eq, ← BitVec.toNat_inj, ha]
    simp
  rw [hline, runLine_wr_toNat (by omega) hidle, hcap, locate_inData hword ha]
  refine ⟨_, rfl, hprog, by rw [hpos]; rfl, by rw [hpending, hnot]; rfl, hcap, hidle, hlen, fun j hj i hi => ?_⟩
  have hread := bufferWordReadsBackAsWritten s.cap h.block.inData k j (loadWord v k) i hi
  change ((h.block.inData.setWord h.block.cap k (loadWord v k)).wordAt s.cap j).getLsbD i = _
  rw [hcap, hread]
  split
  next heq => rw [heq, getLsbD_loadWord v k hi]
  next hne => exact hwords j (by omega) i hi

theorem loadedUpTo_moves {s : State} {v : Bits} (hidle : s.status.busy = false) (hfits : v.length ≤ s.cap.nMax) {k : Nat}
    (hk : k ≤ (v.length + 31) / 32) :
    ∃ h, (HostRun.start s [.loadv v]).moves (List.replicate (1 + k) .host) = some h ∧ LoadedUpTo s v k h := by
  induction k with
  | zero =>
    obtain ⟨h, hmove, hload⟩ := loadedUpTo_zero hidle hfits
    exact ⟨h, by simp [HostRun.moves, hmove], hload⟩
  | succ k ih =>
    obtain ⟨h, hmoves, hload⟩ := ih (Nat.le_of_succ_le hk)
    obtain ⟨h', hmove, hload'⟩ := hload.step hk hfits
    refine ⟨h', ?_, hload'⟩
    rw [← Nat.add_assoc]
    exact moves_replicate_succ hmoves hmove

/-- Settles O31: after the last word the run has ended, and each bit of the vector is a bit of its word. -/
theorem loadvPlacesTheVector : Obligations.LoadvPlacesTheVector := by
  unfold Obligations.LoadvPlacesTheVector
  intro s v hidle hfits
  obtain ⟨h, hmoves, hload⟩ := loadedUpTo_moves hidle hfits le_rfl
  refine ⟨h, hmoves, ?_, hload.inLen, readVec_eq_of_bit fun i hi => ?_⟩
  · simp [HostRun.ended, hload.prog, hload.pos, hload.pending, length_loadProgram]
  · have hbit := hload.words (i / 32) (by omega) (i % 32) (by omega)
    have hplace : 32 * (i / 32) + i % 32 = i := by omega
    rw [hplace, decide_eq_true (by omega), Bool.and_true] at hbit
    exact hbit

end Sys2Proof.Proofs

/-! PROOFS. The host line `WAIT` (30_encoding.md R78; 70_reset_and_hazards.md R203 to R205): its loop of three lines while the
command is pending, and the way out once it has completed. -/

namespace Sys2Proof.Proofs

open Sys2Proof.Machine

/-! ## The three lines -/

/-- The lines of `WAIT`. -/
def waitProgram : List HostLine := expandProgram 0 [.wait]

/-- The variable WAIT reads STATUS into. -/
def waitVar : HostName := .named "s"

section Lines

variable {h : HostRun} (hprog : h.prog = waitProgram)
include hprog

theorem move_wait_label (hpos : h.pos = 0) : h.move .host = some { h with pos := 1 } := by
  have hline : h.prog[h.pos]? = some (.label (.fresh 0)) := by rw [hprog, hpos]; rfl
  rw [move_host_of_line hline, runLine, hpos]

theorem move_wait_read (hpos : h.pos = 1) {b : State} (hb : blockAfter (.access (.read 0x004#32 4)) h.block = some b) :
    h.move .host = some { h with
      block := b
      pos := 2
      vars := assignVar waitVar 0 b.rdata.toNat h.vars
      pending := h.pending && b.rdata.getLsbD 8 } := by
  have hbus : busWord 0x00000004 = some 0x004#32 := busWord_toNat 0x004#32
  have hline : h.prog[h.pos]? = some (.rd (.lit 0x00000004) waitVar (.lit 0)) := by rw [hprog, hpos]; rfl
  rw [move_host_of_line hline]
  simp [runLine, HostExpr.eval, runRead, hbus, hb, hpos]

theorem move_wait_goto (hpos : h.pos = 2) {x : Word} (hx : lookupVar waitVar 0 h.vars = some (x.toNat : Int)) :
    h.move .host = some { h with pos := if x.getLsbD 8 then 0 else 3 } := by
  have hbit : HostExpr.eval h.vars (.bit (.var waitVar) 8) = some (if x.getLsbD 8 then 1 else 0) := by
    rw [HostExpr.eval, HostExpr.eval, hx]
    rfl
  have hplace : placeOf (.fresh 0) h.prog = some 0 := by
    rw [hprog]
    decide
  have hline : h.prog[h.pos]? = some (.ifGoto (.eq (.bit (.var waitVar) 8) (.lit 1)) (.fresh 0)) := by rw [hprog, hpos]; rfl
  rw [move_host_of_line hline, runLine, HostExpr.eval, hbit]
  cases x.getLsbD 8 <;> simp [HostExpr.eval, hplace, hpos]

theorem move_wait_end (hpos : h.pos = 3) : h.move .host = some h := by
  have hpast : h.prog[h.pos]? = none := by rw [hprog, hpos]; rfl
  simp only [HostRun.move, hpast]

end Lines

/-! ## The loop -/

/-- A run of `WAIT` from `s`, `n` host moves into the loop: only the model's own fields of the block have changed, and a value
read showed BUSY. -/
structure WaitLoop (s : State) (n : Nat) (g : HostRun) : Prop where
  prog : g.prog = waitProgram
  pos : g.pos = n % 3
  pending : g.pending = true
  block : ∃ ins x k, g.block = { s with rdata := x, draws := k, inputs := ins }
  shown : g.pos = 2 → ∃ x : Word, lookupVar waitVar 0 g.vars = some (x.toNat : Int) ∧ x.getLsbD 8 = true

theorem WaitLoop.step {s : State} {n : Nat} {g : HostRun} (hloop : WaitLoop s n g) (hbusy : s.status.busy = true) :
    ∃ g', g.move .host = some g' ∧ WaitLoop s (n + 1) g' := by
  obtain ⟨hprog, hpos, hpending, ⟨ins, x, k, hblock⟩, hshown⟩ := hloop
  have hcases : n % 3 = 0 ∨ n % 3 = 1 ∨ n % 3 = 2 := by omega
  rcases hcases with hn | hn | hn
  · exact ⟨_, move_wait_label hprog (hpos.trans hn), hprog, by simp only; omega, hpending, ⟨ins, x, k, hblock⟩, nofun⟩
  · have hread := blockAfter_status_busy (s := g.block) (by rw [hblock]; exact hbusy)
    have hset := busyStatusWord_busy (Config.freeWord g.block.draws)
    refine ⟨_, move_wait_read hprog (hpos.trans hn) hread, hprog, by simp only; omega, ?_, ?_, fun _ => ?_⟩
    · simp only [hpending, hset, Bool.and_self]
    · simp only [hblock]
      exact ⟨_, _, _, rfl⟩
    · exact ⟨_, lookupVar_assignVar .., hset⟩
  · obtain ⟨y, hy, hset⟩ := hshown (hpos.trans hn)
    refine ⟨_, move_wait_goto hprog (hpos.trans hn) hy, hprog, ?_, hpending, ⟨ins, x, k, hblock⟩, ?_⟩
    · simp only [hset, if_true]
      omega
    · simp [hset]

theorem waitLoop_moves {s : State} (hbusy : s.status.busy = true) (n : Nat) :
    ∃ g, ({ HostRun.start s [.wait] with pending := true } : HostRun).moves (List.replicate n .host) = some g ∧
      WaitLoop s n g := by
  induction n with
  | zero => exact ⟨_, rfl, rfl, rfl, rfl, ⟨_, _, _, rfl⟩, nofun⟩
  | succ n ih =>
    obtain ⟨g, hmoves, hloop⟩ := ih
    obtain ⟨g', hmove, hloop'⟩ := hloop.step hbusy
    exact ⟨g', moves_replicate_succ hmoves hmove, hloop'⟩

/-! ## The way out -/

/-- A run of `WAIT` that is past its last line, its last read having shown the block `b` idle. -/
structure WaitEnded (b : State) (h : HostRun) : Prop where
  prog : h.prog = waitProgram
  pos : h.pos = 3
  pending : h.pending = false
  block : h.block = { b with inputs := [], rdata := b.status.word }

theorem WaitEnded.move {b : State} {h : HostRun} (hend : WaitEnded b h) : h.move .host = some h :=
  move_wait_end hend.prog hend.pos

theorem getLsbD_status_word (x : Status) : x.word.getLsbD 8 = x.busy := (statusWord_fields x.result.code x.busy).2.2.1

section Exit

variable {h : HostRun} (hprog : h.prog = waitProgram) (hidle : h.block.status.busy = false)
include hprog hidle

/-- From the read, two moves lead out. -/
theorem waitEnded_of_read (hpos : h.pos = 1) : ∃ h', h.moves [.host, .host] = some h' ∧ WaitEnded h.block h' := by
  have hclear : h.block.status.word.getLsbD 8 = false := (getLsbD_status_word _).trans hidle
  have hread := move_wait_read hprog hpos (blockAfter_status_idle hidle)
  have hgoto := move_wait_goto (h := { h with
      block := { h.block with inputs := [], rdata := h.block.status.word }
      pos := 2
      vars := assignVar waitVar 0 h.block.status.word.toNat h.vars
      pending := h.pending && h.block.status.word.getLsbD 8 }) hprog rfl (lookupVar_assignVar ..)
  exact ⟨_, moves_pair hread hgoto, hprog, if_neg (ne_true_of_eq_false hclear),
    (congrArg _ hclear).trans (Bool.and_false _), rfl⟩

/-- From the label, three moves. -/
theorem waitEnded_of_label (hpos : h.pos = 0) : ∃ h', h.moves [.host, .host, .host] = some h' ∧ WaitEnded h.block h' := by
  obtain ⟨h', hmoves, hend⟩ := waitEnded_of_read (h := { h with pos := 1 }) hprog hidle rfl
  refine ⟨h', ?_, hend⟩
  rw [HostRun.moves, move_wait_label hprog hpos]
  exact hmoves

/-- From anywhere in the loop, four moves are enough. -/
theorem waitEnded_of_loop (hpos : h.pos < 3)
    (hshown : h.pos = 2 → ∃ x : Word, lookupVar waitVar 0 h.vars = some (x.toNat : Int) ∧ x.getLsbD 8 = true) :
    ∃ h', h.moves (List.replicate 4 .host) = some h' ∧ WaitEnded h.block h' := by
  have hcases : h.pos = 0 ∨ h.pos = 1 ∨ h.pos = 2 := by omega
  rcases hcases with hpos | hpos | hpos
  · obtain ⟨h', hmoves, hend⟩ := waitEnded_of_label hprog hidle hpos
    refine ⟨h', ?_, hend⟩
    have hrest := moves_append h [.host, .host, .host] [.host]
    rw [hmoves] at hrest
    exact hrest.trans (by simp [HostRun.moves, hend.move])
  · obtain ⟨h', hmoves, hend⟩ := waitEnded_of_read hprog hidle hpos
    refine ⟨h', ?_, hend⟩
    have hrest := moves_append h [.host, .host] [.host, .host]
    rw [hmoves] at hrest
    exact hrest.trans (by simp [HostRun.moves, hend.move])
  · obtain ⟨x, hx, hset⟩ := hshown hpos
    have hgoto := move_wait_goto hprog hpos hx
    rw [hset, if_pos rfl] at hgoto
    obtain ⟨h', hmoves, hend⟩ := waitEnded_of_label (h := { h with pos := 0 }) hprog hidle rfl
    refine ⟨h', ?_, hend⟩
    rw [List.replicate_succ, HostRun.moves, hgoto]
    exact hmoves

end Exit

/-- Settles O32: the loop by induction on the host's moves, the sequencer's move by the completion step, the way out from each
of the three lines. -/
theorem waitEndsOnceTheCommandHasCompleted : Obligations.WaitEndsOnceTheCommandHasCompleted := by
  unfold Obligations.WaitEndsOnceTheCommandHasCompleted
  intro s n hbusy
  obtain ⟨g, hmoves, hprog, hpos, hpending, ⟨ins, x, k, hblock⟩, hshown⟩ := waitLoop_moves hbusy n
  obtain ⟨t, ht, hdone, -, -, hinputs, hown⟩ := completionStep_own_fields { s with inputs := [] } x k []
  have hseq : blockAfter .sequencer g.block = some { t with rdata := x, draws := k, inputs := [] } := by
    refine blockAfter_sequencer (by rw [hblock]; exact hbusy) ?_
    rw [hblock]
    exact hown
  obtain ⟨h, hexit, hend⟩ := waitEnded_of_loop (h := { g with block := { t with rdata := x, draws := k, inputs := [] } })
    hprog hdone (by simp only; omega) hshown
  refine ⟨g, h, t, hmoves, hpos, hpending, ?_, by rw [hblock]; exact hbusy, ?_, ?_, ht, hdone, ?_⟩
  · simp [HostRun.ended, hpending]
  · rw [HostRun.moves, HostRun.move, hseq]
    exact hexit
  · simp [HostRun.ended, hend.prog, hend.pos, hend.pending, waitProgram, expandProgram, HostMacro.expand]
  · have hempty : t.inputs = [] := hinputs
    rw [hend.block, ← hempty]

end Sys2Proof.Proofs
